-- ==== Sys2Proof/Word.lean ====
section
/-! DEFINITION. The widths of the block's registers and of a bridged port (R8, R10, R61). -/

namespace Sys2Proof

/-- A host-visible register, a command word, a timestamp (REG_WIDTH and TS_WIDTH, R8). -/
abbrev Word := BitVec 64

/-- One byte of a word as it is laid out on a byte-addressed port (R61). -/
abbrev Byte := BitVec 8

end Sys2Proof
end

