-- ==== Sys2Proof/Syntax.lean ====
section
/-! DEFINITION. The instructions: one constructor for each row of spec/opcode_table.json. -/

namespace Sys2Proof

/-- The eight commands of R83 and the two host transactions of R86. A command carries no operand (R82). A register
index is a number as the host presents it; `Instr.wf` says which numbers the port has (R63). -/
inductive Instr where
  /-- PULSE, opcode 0x01 (R105). -/
  | pulse
  /-- CALIBRATE, opcode 0x02 (R122). -/
  | calibrate
  /-- IS_READY, opcode 0x03 (R126). -/
  | isReady
  /-- MEASURE_RAW, opcode 0x04 (R134). -/
  | measureRaw
  /-- CAL_ZERO, opcode 0x05 (R160). -/
  | calZero
  /-- CAL_UNIT, opcode 0x06 (R162). -/
  | calUnit
  /-- MEASURE, opcode 0x07 (R164). -/
  | measure
  /-- RELEASE, opcode 0x08 (R190). -/
  | release
  /-- RD: `RegRead(idx)`, transaction `(0, idx, _)` (R86, R180). -/
  | rd (idx : Nat)
  /-- WR: `RegWrite(idx, data)`, transaction `(1, idx, data)` (R86, R181). -/
  | wr (idx : Nat) (data : Word)
  deriving DecidableEq, Repr

end Sys2Proof
end

