-- ==== Sys2Proof/WellFormed.lean ====
section
/-! DEFINITION. Which instructions the host port can present (R63). -/

namespace Sys2Proof

/-- Every command is well formed. A host transaction is when its index is one of the sixteen of R49 and R63. -/
def Instr.wf : Instr → Bool
  | .pulse => true
  | .calibrate => true
  | .isReady => true
  | .measureRaw => true
  | .calZero => true
  | .calUnit => true
  | .measure => true
  | .release => true
  | .rd idx => decide (idx < 16)
  | .wr idx _ => decide (idx < 16)

end Sys2Proof
end

