-- ==== Sys2Proof/Decode.lean ====
section
/-! DEFINITION. From bytes to instructions and back: command words (R80 to R85) and host transactions (R86). -/

namespace Sys2Proof

/-- Why some bytes are no instruction. -/
inductive DecodeError where
  /-- An 8-byte command word that R84 maps to ILLEGAL. The block answers it with ILLEGAL_COMMAND (R85), so this is no
  stop of the machine. -/
  | illegalCommand (w : Word)
  /-- A 9-byte transaction with a bit set above its 69 (R86 has no such bit; log entry 7). -/
  | reservedBits
  /-- Neither a whole command word nor a whole transaction (R63, I17). -/
  | notATransaction (length : Nat)
  deriving DecidableEq, Repr

/-- Little-endian bytes of a number (R61): the byte at index j holds bits 8j+7 to 8j. -/
def leBytes : Nat → Nat → List Byte
  | 0, _ => []
  | n + 1, v => BitVec.ofNat 8 v :: leBytes n (v / 256)

/-- The number some little-endian bytes stand for (R61). -/
def leValue : List Byte → Nat
  | [] => 0
  | b :: bs => b.toNat + 256 * leValue bs

/-- The command word's format (R80): OPC is bits 7:0. -/
def opcField (w : Word) : BitVec 8 := w.extractLsb' 0 8

/-- The command word's format (R80): RSV is bits 63:8. -/
def rsvField (w : Word) : BitVec 56 := w.extractLsb' 8 56

/-- `decode(w)` of R84: the command of a legal word, `none` for ILLEGAL. Total on every 64-bit value. -/
def decodeCommand (w : Word) : Option Instr :=
  if rsvField w ≠ 0 then none
  else match (opcField w).toNat with
    | 0x01 => some .pulse
    | 0x02 => some .calibrate
    | 0x03 => some .isReady
    | 0x04 => some .measureRaw
    | 0x05 => some .calZero
    | 0x06 => some .calUnit
    | 0x07 => some .measure
    | 0x08 => some .release
    | _ => none

/-- A host transaction `(we, idx, data)` of R86 as one number: bit 0 is `we`, bits 4:1 are `idx`, bits 68:5 are
`data`. The layout is the model's (DESIGN CHOICE, log entry 7); `data` of a read is unused (R86). -/
def decodeBus (v : Nat) : Except DecodeError Instr :=
  if v / 2 ^ 69 ≠ 0 then .error .reservedBits
  else if v % 2 = 0 then .ok (.rd (v / 2 % 16))
  else .ok (.wr (v / 2 % 16) (BitVec.ofNat 64 (v / 32)))

/-- The decoder, total on any bytes: eight bytes are a command word (R81), nine bytes a host transaction. -/
def decode (bytes : List Byte) : Except DecodeError Instr :=
  if bytes.length = 8 then
    match decodeCommand (BitVec.ofNat 64 (leValue bytes)) with
    | some i => .ok i
    | none => .error (.illegalCommand (BitVec.ofNat 64 (leValue bytes)))
  else if bytes.length = 9 then decodeBus (leValue bytes)
  else .error (.notATransaction bytes.length)

/-- The opcode of a command (R83); a host transaction has none and gives 0, which is no opcode (R85). -/
def opcode : Instr → BitVec 8
  | .pulse => 0x01
  | .calibrate => 0x02
  | .isReady => 0x03
  | .measureRaw => 0x04
  | .calZero => 0x05
  | .calUnit => 0x06
  | .measure => 0x07
  | .release => 0x08
  | .rd _ => 0
  | .wr _ _ => 0

/-- The command word of a command (R80, R83): RSV is 0. -/
def commandWord (i : Instr) : Word := (opcode i).setWidth 64

/-- The encoder: the bytes of an instruction (R80 and R83 for commands, R86 and log entry 7 for transactions). -/
def encode : Instr → List Byte
  | .pulse => leBytes 8 0x01
  | .calibrate => leBytes 8 0x02
  | .isReady => leBytes 8 0x03
  | .measureRaw => leBytes 8 0x04
  | .calZero => leBytes 8 0x05
  | .calUnit => leBytes 8 0x06
  | .measure => leBytes 8 0x07
  | .release => leBytes 8 0x08
  | .rd idx => leBytes 9 (2 * idx)
  | .wr idx data => leBytes 9 (1 + 2 * idx + 32 * data.toNat)

/-- The bytes of a row of spec/opcode_table.json whose bits are `w`: a row of 64 bits is a command word, any other row
is a host transaction, its bits above `nbits` 0. -/
def tableBytes (nbits w : Nat) : List Byte :=
  leBytes (if nbits = 64 then 8 else 9) (w % 2 ^ nbits)

/-- The instruction the decoder reads from the bits `w` of a row of spec/opcode_table.json. -/
def decodeTableWord (nbits w : Nat) : Option Instr :=
  match decode (tableBytes nbits w) with
  | .ok i => some i
  | .error _ => none

end Sys2Proof
end

