-- ==== Sys2Proof/Config.lean ====
section
/-! DEFINITION. The parameters of R7, each named once, and the sample they size; the OPEN parameters of R9, which no rule
reads; and the free values behind the two environment agents (R15, R52). -/

namespace Sys2Proof

/-- N_BITS (R7): bits of one sample, and pulses of one sample read. -/
abbrev Config.nBits : Nat := 20

/-- The bit pattern of one sample. -/
abbrev Sample := BitVec Config.nBits

namespace Config

/-- SIGN_BIT (R7): the sign bit of a sample's pattern. -/
def signBit : Nat := 19

/-- BIT_MASK (R7): the all-ones mask of the decoder. -/
def bitMask : Sample := 0xFFFFF

/-- RAW_MIN (R7): the least decoded sample. -/
def rawMin : Int := -524288

/-- RAW_MAX (R7): the greatest decoded sample. -/
def rawMax : Int := 524287

/-- N_CAL_DISCARD (R7): discarded pulses at the start of a calibration. -/
def nCalDiscard : Nat := 22

/-- N_CAL_CHECK (R7): checked pulses at the end of a calibration. -/
def nCalCheck : Nat := 4

/-- N_CAL_TOTAL (R7): pulses of a calibration. -/
def nCalTotal : Nat := nCalDiscard + nCalCheck

/-- T_HIGH_MIN_NS (R7): least valid measured high time, inclusive. -/
def tHighMinNs : Nat := 100

/-- T_HIGH_MAX_NS (R7): greatest valid measured high time, inclusive. -/
def tHighMaxNs : Nat := 20000

/-- POLL_MAX (R7): most ready polls of one acquisition. -/
def pollMax : Nat := 171

/-- POLL_INTERVAL_NS (R7): the nominal sleep between two ready polls. -/
def pollIntervalNs : Nat := 50000000

/-- FRACTION_DEFAULT (R7) as a binary64 pattern (R33): +1.0. -/
def fractionDefault : Word := 0x3FF0000000000000

/-- ZERO_INIT (R7). -/
def zeroInit : Word := 0

/-- UNIT_INIT (R7) as a binary64 pattern (R37): +0.0. -/
def unitInit : Word := 0

/-- FREE VALUE (R15, I2): the level of the data line at the n-th draw for which the host's script says nothing.
No value of it can be proved. Log entry 5. -/
opaque freeLevel : Nat → Bool

/-- FREE VALUE (R52, I3): what the time source shows at the n-th draw for which the host's script says nothing.
No value of it can be proved. Log entry 5. -/
opaque freeTime : Nat → Word

/-- OPEN (R9): PULSE_HOLD_NS. No rule reads it (R106). -/
opaque pulseHoldNs : Nat

/-- OPEN (R9): ENGINE_CLOCK. No rule reads it. -/
opaque engineClock : Nat

/-- OPEN (R9): REG_BASE, the platform address of register index 0. No rule reads it (R68). -/
opaque regBase : Nat

end Config

end Sys2Proof
end

