-- ==== Sys2Proof/Machine/Types.lean ====
section
/-! DEFINITION. The types State is made of: phases, outcomes, pins, events, latches and micro-steps. -/

namespace Sys2Proof.Machine

/-- The engine's phases (R22, R30), held in STATUS.STATE. -/
inductive Phase where
  | init
  | idle
  | calibrating
  | polling
  | reading
  | pulsing
  | sampling
  | released
  deriving DecidableEq, Repr

/-- The result codes (R200), held in STATUS.ERR. -/
inductive ResultCode where
  | ok
  | timingTooShort
  | timingTooLong
  | calibrationFailed
  | notReady
  | notCalibrated
  | invalidFraction
  | illegalCommand
  | released
  deriving DecidableEq, Repr

/-- The outcome of the last calibration (R32), held in STATUS.CAL. -/
inductive CalOutcome where
  | none
  | passed
  | failed
  | aborted
  deriving DecidableEq, Repr

/-- What the block does to the SCLK pin (R51). `notDriven` gives the line no level (R192, I7). -/
inductive Line where
  | notDriven
  | low
  | high
  deriving DecidableEq, Repr

/-- The two pins (R50). -/
inductive Pin where
  | sclk
  | data
  deriving DecidableEq, Repr

/-- The direction of a pin (R14). -/
inductive Direction where
  | output
  | input
  deriving DecidableEq, Repr

/-- The micro-steps a pin trace records (R14, R16), with the values drawn. -/
inductive PinStep where
  | configure (pin : Pin) (dir : Direction)
  | setClk (level : Bool)
  | readData (level : Bool)
  | now (t : Word)
  | sleep (ns : Nat)
  | releasePins
  deriving DecidableEq, Repr

/-- Which bound a pulse violated (R103). -/
inductive ViolationKind where
  | tooShort
  | tooLong
  deriving DecidableEq, Repr

/-- The events of the event port (R222). -/
inductive Event where
  | sample (v : Sample) (s : Int)
  | calCheckFailed (j : Word)
  | timingViolation (kind : ViolationKind) (h : Word)
  | notReady (p : Word)
  | rejected (code : ResultCode) (info : Word)
  deriving DecidableEq, Repr

/-- OPEN (R9): EVENT_WIRE_FORMAT, the physical encoding of an event. No rule reads it (R222). -/
opaque eventWireFormat : Event → List Byte

/-- A hidden latch (R47): its value, and whether a rule has written it since reset. -/
structure Latch (α : Type) where
  value : α
  written : Bool
  deriving DecidableEq, Repr

/-- The names of the latches whose reset value R47 leaves unspecified. -/
inductive LatchName where
  | cmdL
  | fracL
  | acc
  | k
  | p
  | t0
  | t1
  | h
  | d
  deriving DecidableEq, Repr

/-- One micro-step of the engine (R18, R19): one environment primitive of R14, one internal register update, or one
of the tests that end a sequence (`Terminate` of R212 is one atomic step, with the last register write of its command
where R53 says so; DEDUCED, log entry 3). -/
inductive MicroOp where
  /-- `Configure(pin, dir)` (R14, R241). -/
  | configure (pin : Pin) (dir : Direction)
  /-- `SetClk(b)` (R14). -/
  | driveClk (level : Bool)
  /-- `conf <- b` (R241). -/
  | setConf (b : Bool)
  /-- `cmd_l <- op` (R241). -/
  | latchCommand (op : BitVec 8)
  /-- `STATUS.STATE <- phase`. -/
  | setPhase (phase : Phase)
  /-- `k <- n`: the loop counter of R121 and R129. -/
  | setK (n : Nat)
  /-- `t0 <- Now()` (R101). -/
  | readT0
  /-- `t1 <- Now()` (R101). -/
  | readT1
  /-- `h <- t1 - t0` (R101). -/
  | computeH
  /-- `REG[PULSES] <- REG[PULSES] + 1` (R101). -/
  | countPulse
  /-- `REG[HIGHTIME] <- h` (R101). -/
  | showHigh
  /-- The two tests of R101, each of which may raise. -/
  | validate
  /-- `d <- ReadData()` (R121, R126, R128, R129). -/
  | readData
  /-- `if d != 1 then raise CALIBRATION_FAILED(j)` (R121). -/
  | checkCal
  /-- `p <- 0` (R128). -/
  | clearP
  /-- `p <- p + 1` (R128). -/
  | incP
  /-- `REG[POLLS] <- p` (R128). -/
  | showPolls
  /-- The two tests of R128: go on when ready, raise NOT_READY at the last poll, else sleep and poll again. -/
  | pollTest
  /-- `Sleep(POLL_INTERVAL_NS)` (R128). -/
  | sleep
  /-- `acc <- 0` (R129). -/
  | clearAcc
  /-- `acc <- acc[18:0] : b` (R129). -/
  | shiftAcc
  /-- RAW and RAWBITS, written together (R131, R35). -/
  | writeRaw
  /-- `Emit(SAMPLE(v, s))` (R131). -/
  | emitSample
  /-- `ReleasePins()` and `conf <- 0` (R190, R191). -/
  | teardown
  /-- `complete(0)` (R212). -/
  | complete
  /-- STATUS.READY and `complete(0)` of IS_READY (R126, R53). -/
  | completeReady
  /-- ZERO and `complete(0)` of CAL_ZERO (R160, R53). -/
  | completeZero
  /-- UNIT and `complete(0)` of CAL_UNIT (R162, R53). -/
  | completeUnit
  /-- RESULT and `complete(0)` of MEASURE (R164, R53). -/
  | completeMeasure
  deriving DecidableEq, Repr

/-- What the agenda holds: one turn of the host, of the reset input, or of the engine (R70, R240). -/
inductive Turn where
  /-- The engine takes one micro-step. -/
  | engine
  /-- The host presents a transaction (nine bytes), or a whole command alone (eight bytes; the RUN of R88). -/
  | frame (bytes : List Byte)
  /-- The reset input is asserted (R240). -/
  | assertReset
  /-- The reset input is deasserted (R241). -/
  | deassertReset
  deriving DecidableEq, Repr

end Sys2Proof.Machine
end

