-- ==== Sys2Proof/Machine/Program.lean ====
section
/-! DEFINITION. The micro-step sequence of every command and of the start-up, line by line from the spec's
pseudocode. -/

namespace Sys2Proof.Machine

/-- `for i in start .. start + n - 1: body i`, written out. -/
def loopOps (body : Nat → List MicroOp) : Nat → Nat → List MicroOp
  | 0, _ => []
  | n + 1, start => body start ++ loopOps body n (start + 1)

/-- `Pulse()` (R101). The hold of PULSE_HOLD_NS is no micro-step. -/
def pulseOps : List MicroOp :=
  [.readT0, .driveClk true, .driveClk false, .readT1, .computeH, .countPulse, .showHigh, .validate]

/-- One discarded pulse of a calibration (R121): no data read. -/
def discardOps (k : Nat) : List MicroOp := .setK k :: pulseOps

/-- One checked pulse of a calibration (R121). -/
def checkOps (j : Nat) : List MicroOp := .setK j :: (pulseOps ++ [.readData, .checkCal])

/-- `CalSeq()` (R121). -/
def calSeq : List MicroOp :=
  .setPhase .calibrating ::
    (loopOps discardOps Config.nCalDiscard 1 ++ (loopOps checkOps Config.nCalCheck 0 ++ [.complete]))

/-- One turn of the loop of `WaitReady()` up to its tests (R128). -/
def pollOps : List MicroOp := [.readData, .incP, .showPolls, .pollTest]

/-- `WaitReady()` (R128); `pollTest` appends the further turns of its loop. -/
def waitReady : List MicroOp := .setPhase .polling :: .clearP :: pollOps

/-- One bit of `ReadSample()` (R129). -/
def bitOps (k : Nat) : List MicroOp := .setK k :: (pulseOps ++ [.readData, .shiftAcc])

/-- `ReadSample()` (R129). -/
def readSample : List MicroOp := .setPhase .reading :: .clearAcc :: loopOps bitOps Config.nBits 1

/-- `Acquire()` (R131) and then the rest of a command. -/
def acquireThen (rest : List MicroOp) : List MicroOp :=
  waitReady ++ (readSample ++ (.writeRaw :: .emitSample :: rest))

/-- The micro-steps of PULSE (R105). -/
def pulseProgram : List MicroOp := .setPhase .pulsing :: (pulseOps ++ [.complete])

/-- The micro-steps of CALIBRATE (R122). -/
def calibrateProgram : List MicroOp := calSeq

/-- The micro-steps of IS_READY (R126). -/
def isReadyProgram : List MicroOp := [.setPhase .sampling, .readData, .completeReady]

/-- The micro-steps of MEASURE_RAW (R134). -/
def measureRawProgram : List MicroOp := acquireThen [.complete]

/-- The micro-steps of CAL_ZERO (R160). -/
def calZeroProgram : List MicroOp := acquireThen [.completeZero]

/-- The micro-steps of CAL_UNIT (R162). -/
def calUnitProgram : List MicroOp := acquireThen [.completeUnit]

/-- The micro-steps of MEASURE (R164). -/
def measureProgram : List MicroOp := acquireThen [.completeMeasure]

/-- The micro-steps of RELEASE (R190); `complete` makes STATE RELEASED (R212). -/
def releaseProgram : List MicroOp := [.teardown, .complete]

/-- The micro-steps of a command (R83); a host transaction has none. -/
def programOf : Instr → List MicroOp
  | .pulse => pulseProgram
  | .calibrate => calibrateProgram
  | .isReady => isReadyProgram
  | .measureRaw => measureRawProgram
  | .calZero => calZeroProgram
  | .calUnit => calUnitProgram
  | .measure => measureProgram
  | .release => releaseProgram
  | .rd _ => []
  | .wr _ _ => []

/-- `StartUp()` (R241). -/
def startUpProgram : List MicroOp :=
  .configure .sclk .output :: .driveClk false :: .configure .data .input :: .setConf true ::
    .latchCommand (opcode .calibrate) :: calSeq

/-- The most micro-steps a command or the start-up can take: an acquisition that is ready at its last poll (R187,
R260). -/
def commandBound : Nat :=
  2 + (5 * Config.pollMax - 1) + 2 + 11 * Config.nBits + 3

end Sys2Proof.Machine
end

