-- ==== Sys2Proof/Machine/State.lean ====
section
/-! DEFINITION. The state of the block (10_state.md), its reset value (R54), and the reasons a step can stop. -/

namespace Sys2Proof.Machine

/-- The host-visible registers (R23, R25). CMD and the indices 12 to 15 hold no state (R24, R43). -/
structure Regs where
  /-- STATUS.BUSY (R26). -/
  busy : Bool
  /-- STATUS.READY (R27). -/
  ready : Bool
  /-- STATUS.VIOL (R28). -/
  viol : Bool
  /-- STATUS.OVR (R29). -/
  ovr : Bool
  /-- STATUS.STATE (R30). -/
  phase : Phase
  /-- STATUS.ERR (R31). -/
  err : ResultCode
  /-- STATUS.CAL (R32). -/
  cal : CalOutcome
  /-- FRACTION (R33). -/
  fraction : Word
  /-- RAW (R34). -/
  raw : Word
  /-- RAWBITS (R35). -/
  rawbits : Word
  /-- ZERO (R36). -/
  zero : Word
  /-- UNIT (R37). -/
  unit : Word
  /-- RESULT (R38). -/
  result : Word
  /-- ERRINFO (R39). -/
  errinfo : Word
  /-- PULSES (R40). -/
  pulses : Word
  /-- POLLS (R41). -/
  polls : Word
  /-- HIGHTIME (R42). -/
  hightime : Word
  deriving DecidableEq, Repr

/-- The hidden latches (R45, R47). -/
structure Latches where
  /-- `cmd_l`: the opcode of the running command. -/
  cmdL : Latch (BitVec 8)
  /-- `frac_l`: FRACTION as copied at the acceptance of CAL_UNIT. -/
  fracL : Latch Word
  /-- `acc`: the shift accumulator (R45). -/
  acc : Latch Sample
  /-- `k`: pulses issued, or checks made, in the current phase. -/
  k : Latch Nat
  /-- `p`: ready polls made. -/
  p : Latch Nat
  /-- `t0`: the reading before a pulse. -/
  t0 : Latch Word
  /-- `t1`: the reading after a pulse. -/
  t1 : Latch Word
  /-- `h`: the measured high time. -/
  h : Latch Word
  /-- `d` (`b` in R129): the last level read from the data line. -/
  d : Latch Bool
  /-- `conf`: the pins are configured. -/
  conf : Bool
  deriving DecidableEq, Repr

/-- The environment as plain data (R15, R52, R89): what is to be drawn, how much has been drawn, and the previous
reading of the time source. Not the spec's state (DESIGN CHOICE, log entries 4 and 5). -/
structure Env where
  /-- Levels of the data line still to be drawn; a free value after them. -/
  levels : List Bool
  /-- Readings of the time source still to be drawn; a free value after them. -/
  times : List Word
  /-- Levels drawn so far. -/
  levelDraws : Nat
  /-- Readings drawn so far. -/
  timeDraws : Nat
  /-- The previous reading (R52). -/
  lastNow : Word
  deriving DecidableEq, Repr

/-- What an observer has seen so far, oldest first (R16). -/
structure Obs where
  /-- The pin trace. -/
  trace : List PinStep
  /-- The event list. -/
  events : List Event
  /-- The index and the value of every host read. -/
  reads : List (Nat × Word)
  /-- The host-visible registers after each host access, a read or a write. -/
  afterAccess : List Regs
  deriving DecidableEq, Repr

/-- The whole state. -/
structure State where
  regs : Regs
  latches : Latches
  /-- The level driven on SCLK (R51). -/
  sclk : Line
  /-- The reset input is held asserted (R240). -/
  resetAsserted : Bool
  /-- The remaining micro-steps of the running sequence: the engine's position (R21; DEDUCED, log entry 3). -/
  todo : List MicroOp
  env : Env
  obs : Obs
  /-- The turns to come (R70; DESIGN CHOICE, log entry 6). -/
  agenda : List Turn
  deriving DecidableEq, Repr

/-- Why the machine stops. -/
inductive Fault where
  /-- An engine turn whose micro-step reads a latch no rule has written since reset (R47). Safe: the spec asks for it,
  and no run from reset reaches it. Raised by `engineTurn`. -/
  | unwrittenLatch (name : LatchName)
  deriving DecidableEq, Repr

/-- Why the model has no meaning to give. -/
inductive Refusal where
  /-- An instruction whose arm has no meaning yet. Safe. Raised by no arm of this model. -/
  | notModelled (mnemonic : String)
  /-- A host access to an index outside 0 to 15, which cannot be presented to the block (R63). Safe. Raised by `execRd`
  and `execWr`. -/
  | noSuchRegister (idx : Nat)
  /-- Bytes that are no whole command word and no whole transaction, which cannot be presented to the block (R63, I17).
  Safe. Raised by `hostTurn`. -/
  | notATransaction
  deriving DecidableEq, Repr

/-- The registers at reset (R23, R54). -/
def resetRegs : Regs where
  busy := true
  ready := false
  viol := false
  ovr := false
  phase := .init
  err := .ok
  cal := .none
  fraction := Config.fractionDefault
  raw := 0
  rawbits := 0
  zero := Config.zeroInit
  unit := Config.unitInit
  result := 0
  errinfo := 0
  pulses := 0
  polls := 0
  hightime := 0

/-- The latches at reset (R47, R54): `conf` is 0, every other one is unwritten. The value an unwritten latch holds is a
DESIGN CHOICE no rule reads (log entry 2). -/
def resetLatches : Latches where
  cmdL := ⟨0, false⟩
  fracL := ⟨0, false⟩
  acc := ⟨0, false⟩
  k := ⟨0, false⟩
  p := ⟨0, false⟩
  t0 := ⟨0, false⟩
  t1 := ⟨0, false⟩
  h := ⟨0, false⟩
  d := ⟨false, false⟩
  conf := false

/-- The machine at the deassertion of the first reset, before the start-up sequence (R54, R241). -/
def State.reset : State where
  regs := resetRegs
  latches := resetLatches
  sclk := .notDriven
  resetAsserted := false
  todo := startUpProgram
  env := { levels := [], times := [], levelDraws := 0, timeDraws := 0, lastNow := 0 }
  obs := { trace := [], events := [], reads := [], afterAccess := [] }
  agenda := []

end Sys2Proof.Machine
end

