-- ==== Sys2Proof/Machine/Flags.lean ====
section
/-! DEFINITION. The STATUS word (R25) and its codes (R30, R32, R200), and the calibration outcome (R32). -/

namespace Sys2Proof.Machine

/-- The value of STATUS.STATE for a phase (R30). -/
def Phase.code : Phase → Nat
  | .init => 0
  | .idle => 1
  | .calibrating => 2
  | .polling => 3
  | .reading => 4
  | .pulsing => 5
  | .sampling => 6
  | .released => 7

/-- The value of STATUS.ERR for a result code (R200). -/
def ResultCode.code : ResultCode → Nat
  | .ok => 0x00
  | .timingTooShort => 0x01
  | .timingTooLong => 0x02
  | .calibrationFailed => 0x03
  | .notReady => 0x04
  | .notCalibrated => 0x05
  | .invalidFraction => 0x06
  | .illegalCommand => 0x07
  | .released => 0x08

/-- The value of STATUS.CAL for a calibration outcome (R32). -/
def CalOutcome.code : CalOutcome → Nat
  | .none => 0
  | .passed => 1
  | .failed => 2
  | .aborted => 3

/-- The STATUS register as the host reads it (R25): bit 0 BUSY, 1 READY, 2 VIOL, 3 OVR, 7:4 STATE, 15:8 ERR,
17:16 CAL, every other bit 0. -/
def statusWord (r : Regs) : Word :=
  BitVec.ofNat 64 (r.busy.toNat + 2 * r.ready.toNat + 4 * r.viol.toNat + 8 * r.ovr.toNat +
    16 * r.phase.code + 256 * r.err.code + 65536 * r.cal.code)

/-- The result codes of a timing violation (R103), which set VIOL (R28). -/
def ResultCode.isViolation : ResultCode → Bool
  | .timingTooShort => true
  | .timingTooLong => true
  | .ok => false
  | .calibrationFailed => false
  | .notReady => false
  | .notCalibrated => false
  | .invalidFraction => false
  | .illegalCommand => false
  | .released => false

/-- The outcome a calibration that ends with `code` leaves in STATUS.CAL (R212). -/
def calOutcomeOf (code : ResultCode) : CalOutcome :=
  if code = .ok then .passed else if code = .calibrationFailed then .failed else .aborted

/-- STATUS.VIOL after a sequence that ends with `code` (R28, R212): set by a violation, cleared by a calibration that
passes, else kept. -/
def violAfter (code : ResultCode) (calibration viol : Bool) : Bool :=
  if calibration && decide (code = .ok) then false else viol || code.isViolation

/-- The event of a failure that `Terminate` reports (R212, R222); the other codes report none there. -/
def failureEvents (code : ResultCode) (info : Word) : List Event :=
  match code with
  | .timingTooShort => [.timingViolation .tooShort info]
  | .timingTooLong => [.timingViolation .tooLong info]
  | .notReady => [.notReady info]
  | .calibrationFailed => [.calCheckFailed info]
  | .ok => []
  | .notCalibrated => []
  | .invalidFraction => []
  | .illegalCommand => []
  | .released => []

end Sys2Proof.Machine
end

