-- ==== Sys2Proof/Machine/Binary64.lean ====
section
/-! DEFINITION. The binary64 primitives of R17, exact on bit patterns: IEEE 754 binary64, round to nearest, ties to
even, subnormals kept, overflow to the signed infinity, no flags (R151, I20; PRESUMED, log entry 15). -/

namespace Sys2Proof.Machine

/-- The sign bit of a binary64 pattern. -/
def fpSign (a : Word) : Bool := a.getLsbD 63

/-- The biased exponent field. -/
def fpExp (a : Word) : Nat := (a.extractLsb' 52 11).toNat

/-- The fraction field. -/
def fpFrac (a : Word) : Nat := (a.extractLsb' 0 52).toNat

/-- A NaN. -/
def fpIsNaN (a : Word) : Bool := decide (fpExp a = 2047) && decide (fpFrac a ≠ 0)

/-- An infinity of either sign. -/
def fpIsInf (a : Word) : Bool := decide (fpExp a = 2047) && decide (fpFrac a = 0)

/-- `fp_is_finite` (R17). -/
def fpIsFinite (a : Word) : Bool := decide (fpExp a ≠ 2047)

/-- `fp_is_zero` (R17): +0.0 or −0.0. -/
def fpIsZero (a : Word) : Bool := decide (fpExp a = 0) && decide (fpFrac a = 0)

/-- The magnitude of a finite pattern as a whole number of units of 2^−1075: the significand (with its hidden bit
unless subnormal) times two to the exponent. -/
def fpUnits (a : Word) : Nat :=
  if fpExp a = 0 then fpFrac a * 2 else (2 ^ 52 + fpFrac a) * 2 ^ fpExp a

/-- The canonical quiet NaN (R152). -/
def canonicalNaN : Word := 0x7FF8000000000000

/-- A pattern from its sign and the number its other 63 bits form. -/
def fpPack (sign : Bool) (magnitude : Nat) : Word :=
  BitVec.ofNat 64 ((if sign then 2 ^ 63 else 0) + magnitude)

/-- An infinity (R151). -/
def fpInf (sign : Bool) : Word := fpPack sign (2047 * 2 ^ 52)

/-- `n / d` rounded to the nearest whole number, ties to even. -/
def roundHalfEven (n d : Nat) : Nat :=
  if 2 * (n % d) > d ∨ (2 * (n % d) = d ∧ n / d % 2 = 1) then n / d + 1 else n / d

/-- The 63 low bits of the binary64 number nearest to `n / d` in units of 2^−1074: the last place kept is the unit
itself for a subnormal and 2^q units otherwise; past the largest finite number it is the infinity. -/
def roundMagnitude (n d : Nat) : Nat :=
  let q := Nat.log2 (n / d) - 52
  min (q * 2 ^ 52 + roundHalfEven n (d * 2 ^ q)) (2047 * 2 ^ 52)

/-- `fp_from_int` (R17), for an integer of magnitude below 2^53 exact (R153). -/
def fpFromInt (n : Int) : Word :=
  if n = 0 then 0 else fpPack (decide (n < 0)) (roundMagnitude (n.natAbs * 2 ^ 1074) 1)

/-- `fp_mul` (R17, R151). -/
def fpMul (a b : Word) : Word :=
  let sign := fpSign a != fpSign b
  if fpIsNaN a || fpIsNaN b then canonicalNaN
  else if fpIsInf a then (if fpIsZero b then canonicalNaN else fpInf sign)
  else if fpIsInf b then (if fpIsZero a then canonicalNaN else fpInf sign)
  else if fpIsZero a || fpIsZero b then fpPack sign 0
  else fpPack sign (roundMagnitude (fpUnits a * fpUnits b) (2 ^ 1076))

/-- `fp_div` (R17, R151, R155). -/
def fpDiv (a b : Word) : Word :=
  let sign := fpSign a != fpSign b
  if fpIsNaN a || fpIsNaN b then canonicalNaN
  else if fpIsInf a then (if fpIsInf b then canonicalNaN else fpInf sign)
  else if fpIsInf b then fpPack sign 0
  else if fpIsZero b then (if fpIsZero a then canonicalNaN else fpInf sign)
  else if fpIsZero a then fpPack sign 0
  else fpPack sign (roundMagnitude (fpUnits a * 2 ^ 1074) (fpUnits b))

/-- `canon` (R152): the canonical quiet NaN for every NaN, any other pattern as it is. -/
def canon (a : Word) : Word := if fpIsNaN a then canonicalNaN else a

end Sys2Proof.Machine
end

