-- ==== Sys2Proof/Machine/Operands.lean ====
section
/-! DEFINITION. How a command's operands are read: the decoded sample (R130), the difference to ZERO (R153), the
fraction (R156, R162) and the unit (R157, R164). -/

namespace Sys2Proof.Machine

/-- `Decode20` (R130), as the source writes it. -/
def decode20 (v : Sample) : Int :=
  if v.getLsbD Config.signBit then -(((v ^^^ Config.bitMask).toNat : Int) + 1) else (v.toNat : Int)

/-- `acc[18:0] : b` (R129): the accumulator after one more bit. -/
def shiftIn (acc : Sample) (b : Bool) : Sample := (acc.extractLsb' 0 (Config.nBits - 1)) ++ BitVec.ofBool b

/-- The difference of a sample and ZERO as an exact integer (R153); ZERO is read as two's complement (R82). -/
def sampleDifference (s : Int) (zero : Word) : Int := s - zero.toInt

/-- ZERO after CAL_ZERO of a sample (R160): `sext_64(s mod 2^20)`. -/
def zeroOf (s : Int) : Word := (BitVec.ofInt Config.nBits s).signExtend 64

/-- UNIT after CAL_UNIT (R154, R162): the reciprocal of the fraction, rounded, times the difference, rounded, then
`canon` (R152). -/
def unitOf (d : Int) (fraction : Word) : Word :=
  canon (fpMul (fpFromInt d) (fpDiv 0x3FF0000000000000 fraction))

/-- RESULT after MEASURE (R155, R164): one rounded division, then `canon` (R152). -/
def readingOf (d : Int) (unit : Word) : Word := canon (fpDiv (fpFromInt d) unit)

/-- `frac_ok` (R156). -/
def fracOk (f : Word) : Bool := !fpIsZero f && fpIsFinite f

end Sys2Proof.Machine
end

