-- ==== Sys2Proof/Machine/Ops.lean ====
section
/-! DEFINITION. The shared operations: the draws of the environment (R15, R52), the primitives on the pins (R14), the
end of a command (R212), a rejection (R185), and the ends of reset (R240). -/

namespace Sys2Proof.Machine

/-- The level the i-th data-line read from now on returns (R15): the host's script, then a free value. -/
def Env.levelAt (e : Env) (i : Nat) : Bool :=
  e.levels[i]?.getD (Config.freeLevel (e.levelDraws + i))

/-- What the time source shows at the i-th reading from now on: the host's script, then a free value. -/
def Env.timeAt (e : Env) (i : Nat) : Word :=
  e.times[i]?.getD (Config.freeTime (e.timeDraws + i))

/-- A reading is never smaller than the one before it (R52): what the source shows, or the previous reading where that
is greater. Every value that R52 allows is reached, and no other. -/
def monotone (last shown : Word) : Word := if shown < last then last else shown

/-- The value the i-th `Now()` from now on returns (R52). -/
def Env.readingAt (e : Env) : Nat → Word
  | 0 => monotone e.lastNow (e.timeAt 0)
  | i + 1 => monotone (e.readingAt i) (e.timeAt (i + 1))

/-- The environment after one data-line read. -/
def Env.afterLevel (e : Env) : Env := { e with levels := e.levels.tail, levelDraws := e.levelDraws + 1 }

/-- The environment after one `Now()`. -/
def Env.afterReading (e : Env) : Env :=
  { e with times := e.times.tail, timeDraws := e.timeDraws + 1, lastNow := e.readingAt 0 }

/-- A latch a rule has just written (R47). -/
def Latch.of {α : Type} (v : α) : Latch α := ⟨v, true⟩

/-- Appends a micro-step to the pin trace (R16). -/
def State.record (s : State) (p : PinStep) : State := { s with obs := { s.obs with trace := s.obs.trace ++ [p] } }

/-- `Emit(ev)` (R14, R222), for any number of events in order. -/
def State.emit (s : State) (evs : List Event) : State := { s with obs := { s.obs with events := s.obs.events ++ evs } }

/-- Appends the host-visible registers as they are after a host access (R16). -/
def State.observe (s : State) : State :=
  { s with obs := { s.obs with afterAccess := s.obs.afterAccess ++ [s.regs] } }

/-- `Configure(pin, dir)` (R14). -/
def State.configure (s : State) (pin : Pin) (dir : Direction) : State := s.record (.configure pin dir)

/-- `SetClk(b)` (R14, R51). -/
def State.driveClk (s : State) (b : Bool) : State :=
  { s.record (.setClk b) with sclk := if b then .high else .low }

/-- `Sleep(ns)` (R14): no duration in the model (R18, R262). -/
def State.sleep (s : State) (ns : Nat) : State := s.record (.sleep ns)

/-- `ReleasePins()` (R14): after it the block drives neither pin (R192). -/
def State.releasePins (s : State) : State := { s.record .releasePins with sclk := .notDriven }

/-- The teardown of a construction (R191): the pins are released and `conf` is 0, in one step, so that no reset between
the two releases them again (DEDUCED, log entry 3). -/
def State.teardown (s : State) : State := { s.releasePins with latches := { s.latches with conf := false } }

/-- `d <- ReadData()` (R14, R15). -/
def State.readData (s : State) : State :=
  { s.record (.readData (s.env.levelAt 0)) with
    env := s.env.afterLevel
    latches := { s.latches with d := .of (s.env.levelAt 0) } }

/-- `t0 <- Now()` (R14, R52). -/
def State.readT0 (s : State) : State :=
  { s.record (.now (s.env.readingAt 0)) with
    env := s.env.afterReading
    latches := { s.latches with t0 := .of (s.env.readingAt 0) } }

/-- `t1 <- Now()` (R14, R52). -/
def State.readT1 (s : State) : State :=
  { s.record (.now (s.env.readingAt 0)) with
    env := s.env.afterReading
    latches := { s.latches with t1 := .of (s.env.readingAt 0) } }

/-- The registers `Terminate(code, info)` leaves, for the opcode in `cmd_l` (R212). -/
def terminateRegs (r : Regs) (cmd : BitVec 8) (code : ResultCode) (info : Word) : Regs :=
  { r with
    viol := violAfter code (decide (cmd = opcode .calibrate)) r.viol
    cal := if cmd = opcode .calibrate then calOutcomeOf code else r.cal
    err := code
    errinfo := if code = .ok then 0 else info
    phase := if cmd = opcode .release then .released else .idle
    busy := false }

/-- `Terminate(code, info)` (R212): how every command and the start-up end, one atomic step. No later micro-step of the
command runs (R13). -/
def State.terminate (s : State) (code : ResultCode) (info : Word) : State :=
  { s.emit (failureEvents code info) with
    regs := terminateRegs s.regs s.latches.cmdL.value code info
    todo := [] }

/-- `raise E(info)` (R13). -/
def State.raise (s : State) (code : ResultCode) (info : Word) : State := s.terminate code info

/-- `complete(0)` (R13). -/
def State.complete (s : State) : State := s.terminate .ok 0

/-- `Reject(code, info)` (R185): a command ends at acceptance, without running. -/
def State.reject (s : State) (code : ResultCode) (info : Word) : State :=
  { s.emit [.rejected code info] with
    regs := { s.regs with err := code, errinfo := info, pulses := 0, polls := 0, hightime := 0 } }

/-- The reset input is asserted (R240): configured pins are torn down first, then every register and latch takes its
reset value, and the start-up waits. What the environment and the observer hold is kept; events stay
(DEDUCED, log entries 10 and 13). -/
def State.assertReset (s : State) : State :=
  { (if s.latches.conf then s.teardown else s) with
    regs := resetRegs
    latches := resetLatches
    sclk := .notDriven
    resetAsserted := true
    todo := startUpProgram }

/-- The reset input is deasserted (R241): the engine's next micro-step is the first of the start-up. -/
def State.deassertReset (s : State) : State := { s with resetAsserted := false }

end Sys2Proof.Machine
end

