-- ==== Sys2Proof/Machine/Micro.lean ====
section
/-! DEFINITION. What each micro-step does, which latches it reads, and how a sequence runs to its end. -/

namespace Sys2Proof.Machine

/-- The two tests that end `Pulse()` (R101, R103), both bounds inclusive. -/
def State.validate (s : State) : State :=
  if s.latches.h.value.toNat < Config.tHighMinNs then s.raise .timingTooShort s.latches.h.value
  else if s.latches.h.value.toNat > Config.tHighMaxNs then s.raise .timingTooLong s.latches.h.value
  else s

/-- The test of a checked pulse (R121): `k` is the check's index (R124). -/
def State.checkCal (s : State) : State :=
  if s.latches.d.value then s else s.raise .calibrationFailed (BitVec.ofNat 64 s.latches.k.value)

/-- The tests of the ready poll (R127, R128): ready when the line read 0; NOT_READY at the last poll; else sleep and
poll again. -/
def State.pollTest (s : State) : State :=
  if s.latches.d.value then
    if s.latches.p.value = Config.pollMax then s.raise .notReady (BitVec.ofNat 64 s.latches.p.value)
    else { s with todo := .sleep :: (pollOps ++ s.todo) }
  else s

/-- One micro-step, already taken off the sequence. -/
def State.runOp (s : State) : MicroOp → State
  | .configure pin dir => s.configure pin dir
  | .driveClk b => s.driveClk b
  | .setConf b => { s with latches := { s.latches with conf := b } }
  | .latchCommand op => { s with latches := { s.latches with cmdL := .of op } }
  | .setPhase ph => { s with regs := { s.regs with phase := ph } }
  | .setK n => { s with latches := { s.latches with k := .of n } }
  | .readT0 => s.readT0
  | .readT1 => s.readT1
  | .computeH => { s with latches := { s.latches with h := .of (s.latches.t1.value - s.latches.t0.value) } }
  | .countPulse => { s with regs := { s.regs with pulses := s.regs.pulses + 1 } }
  | .showHigh => { s with regs := { s.regs with hightime := s.latches.h.value } }
  | .validate => s.validate
  | .readData => s.readData
  | .checkCal => s.checkCal
  | .clearP => { s with latches := { s.latches with p := .of 0 } }
  | .incP => { s with latches := { s.latches with p := .of (s.latches.p.value + 1) } }
  | .showPolls => { s with regs := { s.regs with polls := BitVec.ofNat 64 s.latches.p.value } }
  | .pollTest => s.pollTest
  | .sleep => s.sleep Config.pollIntervalNs
  | .clearAcc => { s with latches := { s.latches with acc := .of 0 } }
  | .shiftAcc => { s with latches := { s.latches with acc := .of (shiftIn s.latches.acc.value s.latches.d.value) } }
  | .writeRaw =>
    { s with regs := { s.regs with
      raw := s.latches.acc.value.signExtend 64, rawbits := s.latches.acc.value.setWidth 64 } }
  | .emitSample => s.emit [.sample s.latches.acc.value (decode20 s.latches.acc.value)]
  | .teardown => s.teardown
  | .complete => s.complete
  | .completeReady => { s with regs := { s.regs with ready := !s.latches.d.value } }.complete
  | .completeZero => { s with regs := { s.regs with zero := zeroOf (decode20 s.latches.acc.value) } }.complete
  | .completeUnit =>
    { s with regs := { s.regs with
      unit := unitOf (sampleDifference (decode20 s.latches.acc.value) s.regs.zero) s.latches.fracL.value } }.complete
  | .completeMeasure =>
    { s with regs := { s.regs with
      result := readingOf (sampleDifference (decode20 s.latches.acc.value) s.regs.zero) s.regs.unit } }.complete

/-- The engine's next micro-step (R71). None while reset is asserted (R240) or when nothing runs. -/
def State.microStep (s : State) : State :=
  if s.resetAsserted then s
  else match s.todo with
    | [] => s
    | op :: rest => { s with todo := rest }.runOp op

/-- The latches a micro-step reads (R47); a test that may raise also reads `cmd_l` (R212). -/
def MicroOp.reads : MicroOp → List LatchName
  | .configure _ _ => []
  | .driveClk _ => []
  | .setConf _ => []
  | .latchCommand _ => []
  | .setPhase _ => []
  | .setK _ => []
  | .readT0 => []
  | .readT1 => []
  | .computeH => [.t0, .t1]
  | .countPulse => []
  | .showHigh => [.h]
  | .validate => [.h, .cmdL]
  | .readData => []
  | .checkCal => [.d, .k, .cmdL]
  | .clearP => []
  | .incP => [.p]
  | .showPolls => [.p]
  | .pollTest => [.d, .p, .cmdL]
  | .sleep => []
  | .clearAcc => []
  | .shiftAcc => [.acc, .d]
  | .writeRaw => [.acc]
  | .emitSample => [.acc]
  | .teardown => []
  | .complete => [.cmdL]
  | .completeReady => [.d, .cmdL]
  | .completeZero => [.acc, .cmdL]
  | .completeUnit => [.acc, .fracL, .cmdL]
  | .completeMeasure => [.acc, .cmdL]

/-- Whether a rule has written a latch since reset (R47). -/
def Latches.isWritten (l : Latches) : LatchName → Bool
  | .cmdL => l.cmdL.written
  | .fracL => l.fracL.written
  | .acc => l.acc.written
  | .k => l.k.written
  | .p => l.p.written
  | .t0 => l.t0.written
  | .t1 => l.t1.written
  | .h => l.h.written
  | .d => l.d.written

/-- The first latch that a micro-step reads and no rule has written since reset, if there is one (R47). -/
def Latches.firstUnwritten (l : Latches) (op : MicroOp) : Option LatchName :=
  op.reads.find? fun n => !l.isWritten n

/-- Micro-steps alone, no host access between them, until BUSY is 0 or the count is used up. -/
def State.runToEnd : Nat → State → State
  | 0, s => s
  | n + 1, s => if s.regs.busy then s.microStep.runToEnd n else s

end Sys2Proof.Machine
end

