-- ==== Sys2Proof/Machine/Port.lean ====
section
/-! DEFINITION. The host port: reads (R180), writes (R181), the acceptance of a command (R183 to R186), a command
presented alone, and the byte image of a bridge (R61). -/

namespace Sys2Proof.Machine

/-- `RegRead(idx)` (R180): the value on the port. CMD and the reserved indices read 0 (R24, R43). -/
def regRead (r : Regs) : Nat → Word
  | 1 => statusWord r
  | 2 => r.fraction
  | 3 => r.raw
  | 4 => r.rawbits
  | 5 => r.zero
  | 6 => r.unit
  | 7 => r.result
  | 8 => r.errinfo
  | 9 => r.pulses
  | 10 => r.polls
  | 11 => r.hightime
  | _ => 0

/-- The byte a bridge shows at an offset of the register space (R61): byte 8i + j holds bits 8j+7 to 8j of register i. -/
def bridgeByte (r : Regs) (a : Nat) : Byte := (regRead r (a / 8)).extractLsb' (8 * (a % 8)) 8

/-- The registers `Start(op)` leaves (R184). -/
def Regs.started (r : Regs) : Regs :=
  { r with busy := true, err := .ok, errinfo := 0, pulses := 0, polls := 0, hightime := 0 }

/-- `Start(op)` (R184). -/
def State.start (s : State) (i : Instr) : State :=
  { s with
    regs := s.regs.started
    latches := { s.latches with
      cmdL := .of (opcode i)
      fracL := if i = .calUnit then .of s.regs.fraction else s.latches.fracL }
    todo := programOf i }

/-- `Accept(w)` (R183): one atomic step; the first check that fails decides (R210). -/
def State.accept (s : State) (w : Word) : State :=
  if s.regs.busy then { s with regs := { s.regs with ovr := true } }
  else match decodeCommand w with
    | none => s.reject .illegalCommand w
    | some i =>
      if s.regs.phase = .released then s.reject .released w
      else if i = .calUnit ∧ fracOk s.regs.fraction = false then s.reject .invalidFraction s.regs.fraction
      else if i = .measure ∧ fpIsZero s.regs.unit = true then s.reject .notCalibrated 0
      else s.start i

/-- `RegWrite(idx, w)` (R181); ignored while reset is asserted (R240; DEDUCED, log entry 16). -/
def State.regWrite (s : State) (idx : Nat) (w : Word) : State :=
  if s.resetAsserted then s
  else match idx with
    | 0 => s.accept w
    | 1 => if w.getLsbD 3 then { s with regs := { s.regs with ovr := false } } else s
    | 2 => { s with regs := { s.regs with fraction := w } }
    | _ => s

/-- A host read: its value goes to the host's record, and the registers after it are observed (R16). Nothing else changes
(R65). -/
def State.hostRead (s : State) (idx : Nat) : State :=
  { s with obs := { s.obs with reads := s.obs.reads ++ [(idx, regRead s.regs idx)] } }.observe

/-- A host write, and the registers after it are observed (R16). -/
def State.hostWrite (s : State) (idx : Nat) (w : Word) : State := (s.regWrite idx w).observe

/-- A whole command, presented alone (R88; DESIGN CHOICE, log entry 8): its word is written to CMD, one host access, and,
where that starts it, its micro-steps follow to its end. A word that is dropped or rejected starts nothing. -/
def State.runCommand (s : State) (w : Word) : State :=
  if s.resetAsserted || s.regs.busy then s.hostWrite 0 w
  else (s.hostWrite 0 w).runToEnd commandBound

end Sys2Proof.Machine
end

