-- ==== Sys2Proof/Machine/Driver.lean ====
section
/-! DEFINITION. The converter sequencer's commands (41_driver.md). -/

namespace Sys2Proof.Machine

/-- CALIBRATE (R122): the 26-pulse sequence; its micro-steps are `calibrateProgram`. -/
def execCalibrate (s : State) : Host.Outcome State Fault Refusal := .next (s.runCommand (commandWord .calibrate))

/-- IS_READY (R126): one sample of the data line; its micro-steps are `isReadyProgram`. -/
def execIsReady (s : State) : Host.Outcome State Fault Refusal := .next (s.runCommand (commandWord .isReady))

/-- MEASURE_RAW (R134): one acquisition; its micro-steps are `measureRawProgram`. -/
def execMeasureRaw (s : State) : Host.Outcome State Fault Refusal := .next (s.runCommand (commandWord .measureRaw))

end Sys2Proof.Machine
end

