-- ==== Sys2Proof/Machine/Lifecycle.lean ====
section
/-! DEFINITION. Teardown and the host's two transactions (43_host_lifecycle.md). -/

namespace Sys2Proof.Machine

/-- RELEASE (R190): the teardown; its micro-steps are `releaseProgram`. -/
def execRelease (s : State) : Host.Outcome State Fault Refusal := .next (s.runCommand (commandWord .release))

/-- RD (R180). An index outside 0 to 15 cannot be presented (R63). -/
def execRd (idx : Nat) (s : State) : Host.Outcome State Fault Refusal :=
  if idx < 16 then .next (s.hostRead idx)
  else .refused (.noSuchRegister idx)

/-- WR (R181). An index outside 0 to 15 cannot be presented (R63). -/
def execWr (idx : Nat) (data : Word) (s : State) : Host.Outcome State Fault Refusal :=
  if idx < 16 then .next (s.hostWrite idx data) else .refused (.noSuchRegister idx)

end Sys2Proof.Machine
end

