-- ==== Sys2Proof/Machine/Pulse.lean ====
section
/-! DEFINITION. The pulse generator's command (40_pulse.md). -/

namespace Sys2Proof.Machine

/-- PULSE (R105): one validated pulse; its micro-steps are `pulseProgram`. -/
def execPulse (s : State) : Host.Outcome State Fault Refusal := .next (s.runCommand (commandWord .pulse))

end Sys2Proof.Machine
end

