-- ==== Sys2Proof/Machine/Scaler.lean ====
section
/-! DEFINITION. The linear calibration scaler's commands (42_scaler.md). -/

namespace Sys2Proof.Machine

/-- CAL_ZERO (R160): an acquisition whose sample becomes ZERO; its micro-steps are `calZeroProgram`. -/
def execCalZero (s : State) : Host.Outcome State Fault Refusal := .next (s.runCommand (commandWord .calZero))

/-- CAL_UNIT (R162): an acquisition that sets UNIT; its micro-steps are `calUnitProgram`. -/
def execCalUnit (s : State) : Host.Outcome State Fault Refusal := .next (s.runCommand (commandWord .calUnit))

/-- MEASURE (R164): an acquisition that sets RESULT; its micro-steps are `measureProgram`. -/
def execMeasure (s : State) : Host.Outcome State Fault Refusal := .next (s.runCommand (commandWord .measure))

end Sys2Proof.Machine
end

