-- ==== Sys2Proof/Machine/Dispatch.lean ====
section
/-! DEFINITION. One arm for each instruction. -/

namespace Sys2Proof.Machine

/-- The meaning of an instruction. -/
def exec (i : Instr) (s : State) : Host.Outcome State Fault Refusal :=
  match i with
  | .pulse => Sys2Proof.Machine.execPulse s
  | .calibrate => Sys2Proof.Machine.execCalibrate s
  | .isReady => Sys2Proof.Machine.execIsReady s
  | .measureRaw => Sys2Proof.Machine.execMeasureRaw s
  | .calZero => Sys2Proof.Machine.execCalZero s
  | .calUnit => Sys2Proof.Machine.execCalUnit s
  | .measure => Sys2Proof.Machine.execMeasure s
  | .release => Sys2Proof.Machine.execRelease s
  | .rd idx => Sys2Proof.Machine.execRd idx s
  | .wr idx data => Sys2Proof.Machine.execWr idx data s

end Sys2Proof.Machine
end

