-- ==== Sys2Proof/Machine/Turn.lean ====
section
/-! DEFINITION. What one turn does: the engine's, the host's, the reset input's (R70, R240, R241), and how an
instruction is presented as the next turn. -/

namespace Sys2Proof.Machine

/-- The engine's turn: its next micro-step (R71). A micro-step that would read a latch no rule has written faults (R47).
With nothing to run, or reset asserted, the turn changes nothing. -/
def engineTurn (s : State) : Host.Outcome State Fault Refusal :=
  if s.resetAsserted then .next s
  else match s.todo with
    | [] => .next s
    | op :: _ =>
      match s.latches.firstUnwritten op with
      | some n => .fault (.unwrittenLatch n)
      | none => .next s.microStep

/-- The host presents some bytes: an instruction runs; an illegal command word is written to CMD, which answers it
(R85); anything else cannot be presented (R63). -/
def hostTurn (bytes : List Byte) (s : State) : Host.Outcome State Fault Refusal :=
  match decode bytes with
  | .ok i => exec i s
  | .error (.illegalCommand w) => .next (s.hostWrite 0 w)
  | .error .reservedBits => .refused .notATransaction
  | .error (.notATransaction _) => .refused .notATransaction

/-- One turn (R70). -/
def takeTurn (t : Turn) (s : State) : Host.Outcome State Fault Refusal :=
  match t with
  | .engine => engineTurn s
  | .frame bytes => hostTurn bytes s
  | .assertReset => .next s.assertReset
  | .deassertReset => .next s.deassertReset

/-- A state in which a command word is neither ignored nor dropped: reset is deasserted and BUSY is 0, as after a
start-up that has configured the pins (R241, R242). The other registers and latches are as they were. A state that is
so already is unchanged. Used by `withFetchWord` alone (DESIGN CHOICE, log entry 9). -/
def State.readyForCommand (s : State) : State :=
  if s.resetAsserted || s.regs.busy then
    { s with
      regs := { s.regs with busy := false, phase := .idle }
      latches := { s.latches with conf := true }
      sclk := .low
      resetAsserted := false
      todo := [] }
  else s

/-- Presents the bits of a row of spec/opcode_table.json as the next turn. -/
def State.presentWord (s : State) (nbits w : Nat) : State :=
  let t := if nbits = 64 then s.readyForCommand else s
  { t with agenda := .frame (tableBytes nbits w) :: t.agenda }

end Sys2Proof.Machine
end

