-- ==== Sys2Proof/Safety.lean ====
section
/-! DEFINITION. The terms the claims use: what a run draws, what a sequence of pulses and reads shows on the pins, when a
command is accepted, and the invariants. -/

namespace Sys2Proof

/-- The eight commands (R83). -/
def Instr.IsCommand (i : Instr) : Prop :=
  i = .pulse ∨ i = .calibrate ∨ i = .isReady ∨ i = .measureRaw ∨ i = .calZero ∨ i = .calUnit ∨ i = .measure ∨
    i = .release

/-- The four commands that run an acquisition (R131). -/
def Instr.Acquires (i : Instr) : Prop := i = .measureRaw ∨ i = .calZero ∨ i = .calUnit ∨ i = .measure

end Sys2Proof

namespace Sys2Proof.Machine

/-- The value after `n` of something that is `d` before the first and `f i` after the i-th (from 0). -/
def afterLast {α : Type} (d : α) (f : Nat → α) : Nat → α
  | 0 => d
  | n + 1 => f n

/-- The environment after `nl` data-line reads and `nr` time readings. -/
def Env.after (e : Env) (nl nr : Nat) : Env where
  levels := e.levels.drop nl
  times := e.times.drop nr
  levelDraws := e.levelDraws + nl
  timeDraws := e.timeDraws + nr
  lastNow := afterLast e.lastNow e.readingAt nr

/-- The measured high time of the i-th pulse from now on (R101), when every pulse before it takes its two readings. -/
def Env.highAt (e : Env) (i : Nat) : Word := e.readingAt (2 * i + 1) - e.readingAt (2 * i)

/-- A high time that passes validation (R103). -/
abbrev ValidHigh (h : Word) : Prop := Config.tHighMinNs ≤ h.toNat ∧ h.toNat ≤ Config.tHighMaxNs

/-- The result code of a high time that does not (R103). -/
def violationCode (h : Word) : ResultCode :=
  if h.toNat < Config.tHighMinNs then .timingTooShort else .timingTooLong

/-- Its event (R222). -/
def violationEvent (h : Word) : Event :=
  .timingViolation (if h.toNat < Config.tHighMinNs then .tooShort else .tooLong) h

/-- The pattern of the `n` levels from the `first`-th read on, most significant first (R60, R129). -/
def Env.patternAt (e : Env) (first : Nat) : Nat → Sample
  | 0 => 0
  | n + 1 => shiftIn (e.patternAt first n) (e.levelAt (first + n))

/-- The pin trace of the i-th pulse (R101, R105). -/
def Env.pulseTrace (e : Env) (i : Nat) : List PinStep :=
  [.now (e.readingAt (2 * i)), .setClk true, .setClk false, .now (e.readingAt (2 * i + 1))]

/-- The pin trace of the i-th pulse of a calibration, with the read that follows a checked pulse (R121, R122). -/
def Env.calPulseTrace (e : Env) (i : Nat) : List PinStep :=
  e.pulseTrace i ++
    (if Config.nCalDiscard ≤ i then [.readData (e.levelAt (i - Config.nCalDiscard))] else [])

/-- The pin trace of the first `n` pulses of a calibration. -/
def Env.calTrace (e : Env) (n : Nat) : List PinStep := (List.range n).flatMap e.calPulseTrace

/-- The pin trace of the i-th attempt of a ready poll, with the sleep before every one but the first (R128, R134). -/
def Env.pollStep (e : Env) (i : Nat) : List PinStep :=
  (if i = 0 then [] else [.sleep Config.pollIntervalNs]) ++ [.readData (e.levelAt i)]

/-- The pin trace of a ready poll of `n` attempts. -/
def Env.pollTrace (e : Env) (n : Nat) : List PinStep := (List.range n).flatMap e.pollStep

/-- The pin trace of the i-th pulse of a sample read and of the read after it, when `polls` attempts came before
(R129, R134). -/
def Env.bitStep (e : Env) (polls i : Nat) : List PinStep := e.pulseTrace i ++ [.readData (e.levelAt (polls + i))]

/-- The pin trace of the first `n` bits of a sample read. -/
def Env.bitTrace (e : Env) (polls n : Nat) : List PinStep := (List.range n).flatMap (e.bitStep polls)

/-- The ready poll succeeds at attempt `q + 1` (R127, R128). -/
def Env.ReadyAfter (e : Env) (q : Nat) : Prop := (∀ i < q, e.levelAt i = true) ∧ e.levelAt q = false

/-- A legal command word presented now is neither ignored, nor dropped, nor rejected RELEASED (R183). -/
def State.Accepting (s : State) : Prop :=
  s.resetAsserted = false ∧ s.regs.busy = false ∧ s.regs.phase ≠ .released

/-- The precondition of a command (R156, R157, R183). -/
def State.Meets (s : State) (i : Instr) : Prop :=
  (i = .calUnit → fracOk s.regs.fraction = true) ∧ (i = .measure → fpIsZero s.regs.unit = false)

/-- RAW, RAWBITS and ZERO hold what R34, R35 and R36 say they hold. -/
def State.SampleInv (s : State) : Prop :=
  s.regs.rawbits.toNat < 2 ^ Config.nBits ∧ s.regs.raw = (s.regs.rawbits.setWidth Config.nBits).signExtend 64 ∧
    Config.rawMin ≤ s.regs.zero.toInt ∧ s.regs.zero.toInt ≤ Config.rawMax

/-- A micro-step that ends the command it stands in. -/
def MicroOp.completes : MicroOp → Bool
  | .complete => true
  | .completeReady => true
  | .completeZero => true
  | .completeUnit => true
  | .completeMeasure => true
  | _ => false

/-- BUSY is 1 exactly while a sequence has micro-steps left, the last of which ends it; when BUSY is 0 the engine is IDLE
or RELEASED (R22, R26). -/
def State.EngineInv (s : State) : Prop :=
  (s.regs.busy = false → s.todo = [] ∧ (s.regs.phase = .idle ∨ s.regs.phase = .released)) ∧
    (s.regs.busy = true → ∃ op, s.todo.getLast? = some op ∧ op.completes = true)

/-- In a sequence, every rise of SCLK is followed at once by its fall. -/
def clkPaired : List MicroOp → Bool
  | [] => true
  | .driveClk true :: rest => decide (rest.head? = some (.driveClk false)) && clkPaired rest
  | _ :: rest => clkPaired rest

/-- SCLK is high only between the rise and the fall of one pulse (R51). -/
def State.ClockInv (s : State) : Prop :=
  (s.regs.busy = false → s.todo = []) ∧ clkPaired s.todo = true ∧
    (s.sclk = .high → s.todo.head? = some (.driveClk false))

/-- The latch a micro-step writes. -/
def MicroOp.writes : MicroOp → List LatchName
  | .latchCommand _ => [.cmdL]
  | .setK _ => [.k]
  | .readT0 => [.t0]
  | .readT1 => [.t1]
  | .computeH => [.h]
  | .readData => [.d]
  | .clearP => [.p]
  | .incP => [.p]
  | .clearAcc => [.acc]
  | .shiftAcc => [.acc]
  | _ => []

/-- Every latch a sequence reads is in `known` or is written earlier in the sequence (R47). -/
def writtenBeforeRead (known : List LatchName) : List MicroOp → Bool
  | [] => true
  | op :: rest => op.reads.all (known.contains ·) && writtenBeforeRead (op.writes ++ known) rest

/-- The latches whose value at reset R47 leaves unspecified. -/
def allLatches : List LatchName := [.cmdL, .fracL, .acc, .k, .p, .t0, .t1, .h, .d]

/-- The engine never comes to read a latch that no rule has written since reset (R47). -/
def State.LatchInv (s : State) : Prop :=
  writtenBeforeRead (allLatches.filter s.latches.isWritten) s.todo = true

/-- How many times the pins have been released since a start-up last configured SCLK: for the construction going on, or
the one that ended last (R191). -/
def releases (trace : List PinStep) : Nat :=
  trace.foldl
    (fun n p => match p with
      | .configure .sclk _ => 0
      | .releasePins => n + 1
      | _ => n) 0

/-- A micro-step of any sequence but the start-up's pin configuration and the teardown. -/
def MicroOp.plain : MicroOp → Bool
  | .configure _ _ => false
  | .setConf _ => false
  | .latchCommand op => decide (op ≠ opcode .release)
  | .setPhase ph => decide (ph ≠ .released)
  | .teardown => false
  | _ => true

/-- The latched command is RELEASE. -/
abbrev State.InRelease (s : State) : Prop := s.latches.cmdL.value = opcode .release

/-- The start-up has not yet configured the pins; they may have been released for the construction before. -/
def State.Constructing (s : State) : Prop :=
  s.regs.busy = true ∧ s.regs.phase ≠ .released ∧
    (s.todo = startUpProgram ∧ releases s.obs.trace ≤ 1 ∨
      ∃ n ∈ [1, 2, 3], s.todo = startUpProgram.drop n ∧ releases s.obs.trace = 0)

/-- The pins are released exactly once for one construction (R191): not yet while `conf` is 1, when only a RELEASE about
to begin holds a teardown (the start-up latches its own command before one could end it); once when `conf` is 0 again,
when nothing is left but to become RELEASED. -/
def State.TeardownInv (s : State) : Prop :=
  (s.latches.conf = true → releases s.obs.trace = 0 ∧ s.regs.phase ≠ .released ∧ (s.regs.busy = false → s.todo = []) ∧
    (s.todo = releaseProgram ∧ s.InRelease ∨ s.todo.all MicroOp.plain = true ∧
      (s.InRelease → s.todo.head? = some (.latchCommand (opcode .calibrate))))) ∧
  (s.latches.conf = false → s.Constructing ∨ releases s.obs.trace = 1 ∧
    (s.regs.busy = true ∧ s.todo = [.complete] ∧ s.InRelease ∨
      s.regs.busy = false ∧ s.todo = [] ∧ s.regs.phase = .released))

/-- The time readings of a pin trace, in order. -/
def nowReadings (trace : List PinStep) : List Word :=
  trace.filterMap fun
    | .now t => some t
    | _ => none

/-- No time reading is smaller than one before it (R52). -/
def State.TimeInv (s : State) : Prop :=
  (nowReadings s.obs.trace).Pairwise (· ≤ ·) ∧ ∀ t ∈ nowReadings s.obs.trace, t ≤ s.env.lastNow

end Sys2Proof.Machine
end

