-- ==== Sys2Proof/Certificates/Slice0/Obligations.lean ====
section
/-! DEFINITION. The statements about the model, for the provers. Each docstring names the rules of spec/ it comes from. -/

open Sys2Proof Sys2Proof.Machine

/-! ### Encoding -/

/-- Words written out from R80, R83 and the host transaction of R86 (its layout is the model's, log entry 7) decode to
their instructions; a word of the illegal space of R85 does not. -/
def Obligations.WordsOfTheTableDecode : Prop :=
  decode [0x01, 0, 0, 0, 0, 0, 0, 0] = .ok .pulse ∧
  decode [0x02, 0, 0, 0, 0, 0, 0, 0] = .ok .calibrate ∧
  decode [0x04, 0, 0, 0, 0, 0, 0, 0] = .ok .measureRaw ∧
  decode [0x06, 0, 0, 0, 0, 0, 0, 0] = .ok .calUnit ∧
  decode [0x08, 0, 0, 0, 0, 0, 0, 0] = .ok .release ∧
  decode [0x02, 0, 0, 0, 0, 0, 0, 0, 0] = .ok (.rd 1) ∧
  decode [0x45, 0, 0, 0, 0, 0, 0, 0, 0x08] = .ok (.wr 2 0x4000000000000002) ∧
  decode [0x04, 0x01, 0, 0, 0, 0, 0, 0] = .error (.illegalCommand 0x104)

/-- Decode and encode agree, for every instruction with every operand its encoding admits (R80, R83, R86; how the bits of
a transaction lie is the MODEL'S choice, log entry 7). -/
def Obligations.DecodeAfterEncode : Prop :=
  ∀ i : Instr, i.wf = true → decode (encode i) = .ok i

/-- The decoding of every 64-bit word (R84): eight words are commands, and a legal word is its opcode (R83). -/
def Obligations.DecodeCommandIsTheOpcodeMap : Prop :=
  ∀ w : Word,
    (decodeCommand w = some .pulse ↔ w = 1) ∧ (decodeCommand w = some .calibrate ↔ w = 2) ∧
    (decodeCommand w = some .isReady ↔ w = 3) ∧ (decodeCommand w = some .measureRaw ↔ w = 4) ∧
    (decodeCommand w = some .calZero ↔ w = 5) ∧ (decodeCommand w = some .calUnit ↔ w = 6) ∧
    (decodeCommand w = some .measure ↔ w = 7) ∧ (decodeCommand w = some .release ↔ w = 8) ∧
    (decodeCommand w = none ↔ w = 0 ∨ 9 ≤ w.toNat)

/-! ### The host port -/

/-- A read of each index (R180): the host gets the register's value, and nothing else changes but the observation of
the access (R16). -/
def Obligations.ReadReturnsTheRegister : Prop :=
  ∀ (s : State) (idx : Nat) (v : Word),
    (idx = 0 ∧ v = 0 ∨ idx = 1 ∧ v = statusWord s.regs ∨ idx = 2 ∧ v = s.regs.fraction ∨
      idx = 3 ∧ v = s.regs.raw ∨ idx = 4 ∧ v = s.regs.rawbits ∨ idx = 5 ∧ v = s.regs.zero ∨
      idx = 6 ∧ v = s.regs.unit ∨ idx = 7 ∧ v = s.regs.result ∨ idx = 8 ∧ v = s.regs.errinfo ∨
      idx = 9 ∧ v = s.regs.pulses ∨ idx = 10 ∧ v = s.regs.polls ∨ idx = 11 ∧ v = s.regs.hightime ∨
      12 ≤ idx ∧ idx ≤ 15 ∧ v = 0) →
    exec (.rd idx) s = .next { s with obs := { s.obs with
      reads := s.obs.reads ++ [(idx, v)], afterAccess := s.obs.afterAccess ++ [s.regs] } }

/-- The fields of STATUS (R25) and the values of STATE (R30), ERR (R200) and CAL (R32). -/
def Obligations.StatusFieldsStandWhereTheSpecSays : Prop :=
  ∀ r : Regs,
    (statusWord r).getLsbD 0 = r.busy ∧ (statusWord r).getLsbD 1 = r.ready ∧ (statusWord r).getLsbD 2 = r.viol ∧
    (statusWord r).getLsbD 3 = r.ovr ∧
    (statusWord r).extractLsb' 4 4 =
      (match r.phase with
        | .init => 0 | .idle => 1 | .calibrating => 2 | .polling => 3
        | .reading => 4 | .pulsing => 5 | .sampling => 6 | .released => 7) ∧
    (statusWord r).extractLsb' 8 8 =
      (match r.err with
        | .ok => 0 | .timingTooShort => 1 | .timingTooLong => 2 | .calibrationFailed => 3 | .notReady => 4
        | .notCalibrated => 5 | .invalidFraction => 6 | .illegalCommand => 7 | .released => 8) ∧
    (statusWord r).extractLsb' 16 2 =
      (match r.cal with
        | .none => 0 | .passed => 1 | .failed => 2 | .aborted => 3) ∧
    (statusWord r).extractLsb' 18 46 = 0

/-- An index outside 0 to 15 is refused by name (R63). -/
def Obligations.IndexOutsideThePortIsRefused : Prop :=
  ∀ (s : State) (idx : Nat) (w : Word), 16 ≤ idx →
    exec (.rd idx) s = .refused (.noSuchRegister idx) ∧ exec (.wr idx w) s = .refused (.noSuchRegister idx)

/-- A write of each index but CMD (R181, R182): STATUS clears OVR where bit 3 is 1, FRACTION takes any pattern, reset
being deasserted; every other index ignores it, in every state. The access is observed (R16). -/
def Obligations.WritesReachOnlyOvrAndFraction : Prop :=
  ∀ (s : State) (w : Word),
    (s.resetAsserted = false →
      (w.getLsbD 3 = true → exec (.wr 1 w) s = .next { s with
        regs := { s.regs with ovr := false }
        obs := { s.obs with afterAccess := s.obs.afterAccess ++ [{ s.regs with ovr := false }] } }) ∧
      (w.getLsbD 3 = false → exec (.wr 1 w) s = .next { s with
        obs := { s.obs with afterAccess := s.obs.afterAccess ++ [s.regs] } }) ∧
      exec (.wr 2 w) s = .next { s with
        regs := { s.regs with fraction := w }
        obs := { s.obs with afterAccess := s.obs.afterAccess ++ [{ s.regs with fraction := w }] } }) ∧
    ∀ idx : Nat, 3 ≤ idx → idx ≤ 15 → exec (.wr idx w) s = .next { s with
      obs := { s.obs with afterAccess := s.obs.afterAccess ++ [s.regs] } }

/-- A CMD write while BUSY is 1 is dropped (R186): OVR is set and nothing else changes, whatever the word, but the
observation of the access (R16). While reset is asserted it is ignored instead (R240, `HeldResetFreezesTheBlock`). -/
def Obligations.CommandWhileBusyIsDropped : Prop :=
  ∀ (s : State) (w : Word), s.resetAsserted = false → s.regs.busy = true →
    exec (.wr 0 w) s = .next { s with
      regs := { s.regs with ovr := true }
      obs := { s.obs with afterAccess := s.obs.afterAccess ++ [{ s.regs with ovr := true }] } }

/-- The MODEL'S choice of log entry 8: a command presented alone that is ignored, dropped or rejected is the write of its
word to CMD. -/
def Obligations.CommandAloneThatDoesNotStartIsItsWrite : Prop :=
  ∀ (s : State) (i : Instr), i.IsCommand →
    s.resetAsserted = true ∨ s.regs.busy = true ∨ s.regs.phase = .released ∨ ¬s.Meets i →
    exec i s = exec (.wr 0 (commandWord i)) s

/-- A word outside the opcode map, written to CMD while BUSY is 0, released or not, is rejected (R85, R185, R207). -/
def Obligations.IllegalWordIsRejected : Prop :=
  ∀ (s : State) (w : Word), s.resetAsserted = false → s.regs.busy = false → (w = 0 ∨ 9 ≤ w.toNat) →
    let r : Regs := { s.regs with err := .illegalCommand, errinfo := w, pulses := 0, polls := 0, hightime := 0 }
    exec (.wr 0 w) s = .next { s with
      regs := r
      obs := { s.obs with
        events := s.obs.events ++ [.rejected .illegalCommand w], afterAccess := s.obs.afterAccess ++ [r] } }

/-- Once released, every command is rejected RELEASED (R208), before its own precondition is looked at (R210). -/
def Obligations.ReleasedBlockRejectsEveryCommand : Prop :=
  ∀ (s : State) (i : Instr), s.resetAsserted = false → s.regs.busy = false → s.regs.phase = .released → i.IsCommand →
    let r : Regs := { s.regs with err := .released, errinfo := commandWord i, pulses := 0, polls := 0, hightime := 0 }
    exec i s = .next { s with
      regs := r
      obs := { s.obs with
        events := s.obs.events ++ [.rejected .released (commandWord i)]
        afterAccess := s.obs.afterAccess ++ [r] } } ∧
    exec (.wr 0 (commandWord i)) s = exec i s

/-- CAL_UNIT with a fraction that is a zero of either sign, an infinity or a NaN is rejected at acceptance (R156, R206):
no pin activity, UNIT unchanged. -/
def Obligations.InvalidFractionIsRejected : Prop :=
  ∀ s : State, s.Accepting →
    (s.regs.fraction = 0 ∨ s.regs.fraction = 0x8000000000000000 ∨ s.regs.fraction.extractLsb' 52 11 = 0x7FF) →
    let r : Regs := { s.regs with
      err := .invalidFraction, errinfo := s.regs.fraction, pulses := 0, polls := 0, hightime := 0 }
    exec .calUnit s = .next { s with
      regs := r
      obs := { s.obs with
        events := s.obs.events ++ [.rejected .invalidFraction s.regs.fraction]
        afterAccess := s.obs.afterAccess ++ [r] } }

/-- MEASURE with UNIT a zero of either sign is rejected at acceptance (R157, R205): no pin activity, RESULT
unchanged. -/
def Obligations.ZeroUnitIsRejected : Prop :=
  ∀ s : State, s.Accepting → (s.regs.unit = 0 ∨ s.regs.unit = 0x8000000000000000) →
    let r : Regs := { s.regs with err := .notCalibrated, errinfo := 0, pulses := 0, polls := 0, hightime := 0 }
    exec .measure s = .next { s with
      regs := r
      obs := { s.obs with
        events := s.obs.events ++ [.rejected .notCalibrated 0], afterAccess := s.obs.afterAccess ++ [r] } }

/-- A command that passes the checks of R183 is started by the write of its word to CMD (R184): it is latched, with
FRACTION for CAL_UNIT, the per-command registers are cleared, its micro-steps are due, and the access is observed
(R16) with the registers `Regs.started` names. -/
def Obligations.AcceptedCommandStarts : Prop :=
  ∀ (s : State) (i : Instr), s.Accepting → i.IsCommand → s.Meets i →
    let r : Regs := { s.regs with busy := true, err := .ok, errinfo := 0, pulses := 0, polls := 0, hightime := 0 }
    exec (.wr 0 (commandWord i)) s = .next { s with
      regs := r
      latches := { s.latches with
        cmdL := ⟨opcode i, true⟩
        fracL := if i = .calUnit then ⟨s.regs.fraction, true⟩ else s.latches.fracL }
      todo := programOf i
      obs := { s.obs with afterAccess := s.obs.afterAccess ++ [r] } } ∧ s.regs.started = r

/-! ### The commands

Each of these is the command presented alone (log entry 8): the one access observed is the write of its word to CMD. -/

/-- PULSE whose high time is in the window (R105, R103): one pulse, no data read. -/
def Obligations.PulseInTheWindowCompletes : Prop :=
  ∀ s : State, s.Accepting → ValidHigh (s.env.highAt 0) →
    ∃ l : Latches, l.conf = s.latches.conf ∧
      exec .pulse s = .next { s with
        regs := { s.regs with
          phase := .idle, err := .ok, errinfo := 0, pulses := 1, polls := 0, hightime := s.env.highAt 0 }
        latches := l, sclk := .low, todo := [], env := s.env.after 0 2
        obs := { s.obs with
          trace := s.obs.trace ++ s.env.pulseTrace 0
          afterAccess := s.obs.afterAccess ++ [s.regs.started] } }

/-- PULSE whose high time is below 100 ns or above 20000 ns (R103, R104): the violation's code, its high time, VIOL and
its event; SCLK is low. -/
def Obligations.PulseOutsideTheWindowViolates : Prop :=
  ∀ s : State, s.Accepting →
    (s.env.highAt 0).toNat < 100 ∨ 20000 < (s.env.highAt 0).toNat →
    ∃ (l : Latches) (code : ResultCode) (kind : ViolationKind), l.conf = s.latches.conf ∧
      ((s.env.highAt 0).toNat < 100 → code = .timingTooShort ∧ kind = .tooShort) ∧
      (20000 < (s.env.highAt 0).toNat → code = .timingTooLong ∧ kind = .tooLong) ∧
      exec .pulse s = .next { s with
        regs := { s.regs with
          phase := .idle, viol := true, err := code, errinfo := s.env.highAt 0
          pulses := 1, polls := 0, hightime := s.env.highAt 0 }
        latches := l, sclk := .low, todo := [], env := s.env.after 0 2
        obs := { s.obs with
          trace := s.obs.trace ++ s.env.pulseTrace 0
          events := s.obs.events ++ [.timingViolation kind (s.env.highAt 0)]
          afterAccess := s.obs.afterAccess ++ [s.regs.started] } }

/-- CALIBRATE whose 26 pulses pass and whose four checks read 1 (R122, R123). -/
def Obligations.CalibrationPasses : Prop :=
  ∀ s : State, s.Accepting → (∀ i < 26, ValidHigh (s.env.highAt i)) → (∀ j < 4, s.env.levelAt j = true) →
    ∃ l : Latches, l.conf = s.latches.conf ∧
      exec .calibrate s = .next { s with
        regs := { s.regs with
          phase := .idle, viol := false, cal := .passed, err := .ok, errinfo := 0
          pulses := 26, polls := 0, hightime := s.env.highAt 25 }
        latches := l, sclk := .low, todo := [], env := s.env.after 4 52
        obs := { s.obs with
          trace := s.obs.trace ++ s.env.calTrace 26
          afterAccess := s.obs.afterAccess ++ [s.regs.started] } }

/-- CALIBRATE whose check `j` is the first to read 0 (R121, R124): it stops there, with no violation. -/
def Obligations.CalibrationCheckFails : Prop :=
  ∀ (s : State) (j : Nat), s.Accepting → j < 4 → (∀ i < 23 + j, ValidHigh (s.env.highAt i)) →
    (∀ i < j, s.env.levelAt i = true) → s.env.levelAt j = false →
    ∃ l : Latches, l.conf = s.latches.conf ∧
      exec .calibrate s = .next { s with
        regs := { s.regs with
          phase := .idle, cal := .failed, err := .calibrationFailed, errinfo := BitVec.ofNat 64 j
          pulses := BitVec.ofNat 64 (23 + j), polls := 0, hightime := s.env.highAt (22 + j) }
        latches := l, sclk := .low, todo := [], env := s.env.after (j + 1) (2 * (23 + j))
        obs := { s.obs with
          trace := s.obs.trace ++ s.env.calTrace (23 + j)
          events := s.obs.events ++ [.calCheckFailed (BitVec.ofNat 64 j)]
          afterAccess := s.obs.afterAccess ++ [s.regs.started] } }

/-- CALIBRATE whose pulse `n` (from 0) is the first to violate, every check before it having read 1 (R104, R125): no
read follows it and no further pulse is issued. -/
def Obligations.CalibrationAbortsOnViolation : Prop :=
  ∀ (s : State) (n : Nat), s.Accepting → n < 26 → (∀ i < n, ValidHigh (s.env.highAt i)) →
    ¬ValidHigh (s.env.highAt n) → (∀ j < n - 22, s.env.levelAt j = true) →
    ∃ l : Latches, l.conf = s.latches.conf ∧
      exec .calibrate s = .next { s with
        regs := { s.regs with
          phase := .idle, viol := true, cal := .aborted
          err := violationCode (s.env.highAt n), errinfo := s.env.highAt n
          pulses := BitVec.ofNat 64 (n + 1), polls := 0, hightime := s.env.highAt n }
        latches := l, sclk := .low, todo := [], env := s.env.after (n - 22) (2 * (n + 1))
        obs := { s.obs with
          trace := s.obs.trace ++ (s.env.calTrace n ++ s.env.pulseTrace n)
          events := s.obs.events ++ [violationEvent (s.env.highAt n)]
          afterAccess := s.obs.afterAccess ++ [s.regs.started] } }

/-- IS_READY (R126): one read of the data line, READY is 1 exactly when it returned 0, and it always ends OK. -/
def Obligations.IsReadySamplesTheLine : Prop :=
  ∀ s : State, s.Accepting →
    ∃ l : Latches, l.conf = s.latches.conf ∧
      exec .isReady s = .next { s with
        regs := { s.regs with
          phase := .idle, ready := !s.env.levelAt 0, err := .ok, errinfo := 0, pulses := 0, polls := 0, hightime := 0 }
        latches := l, todo := [], env := s.env.after 1 0
        obs := { s.obs with
          trace := s.obs.trace ++ [.readData (s.env.levelAt 0)]
          afterAccess := s.obs.afterAccess ++ [s.regs.started] } }

/-- MEASURE_RAW ready at attempt `q + 1`, its 20 pulses passing (R128, R129, R131, R134): the pattern of the 20 levels
after the poll goes to RAWBITS, its sign extension to RAW, and a SAMPLE event tells both. -/
def Obligations.MeasureRawCompletes : Prop :=
  ∀ (s : State) (q : Nat), s.Accepting → q < 171 → s.env.ReadyAfter q → (∀ i < 20, ValidHigh (s.env.highAt i)) →
    ∃ l : Latches, l.conf = s.latches.conf ∧
      exec .measureRaw s = .next { s with
        regs := { s.regs with
          phase := .idle, err := .ok, errinfo := 0
          raw := (s.env.patternAt (q + 1) 20).signExtend 64, rawbits := (s.env.patternAt (q + 1) 20).setWidth 64
          pulses := 20, polls := BitVec.ofNat 64 (q + 1), hightime := s.env.highAt 19 }
        latches := l, sclk := .low, todo := [], env := s.env.after (q + 21) 40
        obs := { s.obs with
          trace := s.obs.trace ++ (s.env.pollTrace (q + 1) ++ s.env.bitTrace (q + 1) 20)
          events := s.obs.events ++
            [.sample (s.env.patternAt (q + 1) 20) (s.env.patternAt (q + 1) 20).toInt]
          afterAccess := s.obs.afterAccess ++ [s.regs.started] } }

/-- An acquisition of any of its four commands whose 171 polls all read 1 (R128, R204): NOT_READY, 170 sleeps, no pulse,
no result. -/
def Obligations.AcquisitionNeverReadyTimesOut : Prop :=
  ∀ (s : State) (i : Instr), s.Accepting → i.Acquires → s.Meets i → (∀ j < 171, s.env.levelAt j = true) →
    ∃ l : Latches, l.conf = s.latches.conf ∧
      exec i s = .next { s with
        regs := { s.regs with
          phase := .idle, err := .notReady, errinfo := 171, pulses := 0, polls := 171, hightime := 0 }
        latches := l, todo := [], env := s.env.after 171 0
        obs := { s.obs with
          trace := s.obs.trace ++ s.env.pollTrace 171
          events := s.obs.events ++ [.notReady 171]
          afterAccess := s.obs.afterAccess ++ [s.regs.started] } }

/-- An acquisition of any of its four commands, ready at attempt `q + 1`, whose pulse `n` (from 0) is the first to
violate (R104, R129, R213): it ends there, no read follows, no result register changes, no SAMPLE is told. -/
def Obligations.AcquisitionAbortsOnViolation : Prop :=
  ∀ (s : State) (i : Instr) (q n : Nat), s.Accepting → i.Acquires → s.Meets i → q < 171 → s.env.ReadyAfter q → n < 20 →
    (∀ j < n, ValidHigh (s.env.highAt j)) → ¬ValidHigh (s.env.highAt n) →
    ∃ l : Latches, l.conf = s.latches.conf ∧
      exec i s = .next { s with
        regs := { s.regs with
          phase := .idle, viol := true, err := violationCode (s.env.highAt n), errinfo := s.env.highAt n
          pulses := BitVec.ofNat 64 (n + 1), polls := BitVec.ofNat 64 (q + 1), hightime := s.env.highAt n }
        latches := l, sclk := .low, todo := [], env := s.env.after (q + 1 + n) (2 * (n + 1))
        obs := { s.obs with
          trace := s.obs.trace ++
            (s.env.pollTrace (q + 1) ++ (s.env.bitTrace (q + 1) n ++ s.env.pulseTrace n))
          events := s.obs.events ++ [violationEvent (s.env.highAt n)]
          afterAccess := s.obs.afterAccess ++ [s.regs.started] } }

/-- CAL_ZERO (R160): as MEASURE_RAW, and ZERO becomes the sample. -/
def Obligations.CalZeroStoresTheSample : Prop :=
  ∀ (s : State) (q : Nat), s.Accepting → q < 171 → s.env.ReadyAfter q → (∀ i < 20, ValidHigh (s.env.highAt i)) →
    ∃ l : Latches, l.conf = s.latches.conf ∧
      exec .calZero s = .next { s with
        regs := { s.regs with
          phase := .idle, err := .ok, errinfo := 0
          raw := (s.env.patternAt (q + 1) 20).signExtend 64, rawbits := (s.env.patternAt (q + 1) 20).setWidth 64
          zero := (s.env.patternAt (q + 1) 20).signExtend 64
          pulses := 20, polls := BitVec.ofNat 64 (q + 1), hightime := s.env.highAt 19 }
        latches := l, sclk := .low, todo := [], env := s.env.after (q + 21) 40
        obs := { s.obs with
          trace := s.obs.trace ++ (s.env.pollTrace (q + 1) ++ s.env.bitTrace (q + 1) 20)
          events := s.obs.events ++
            [.sample (s.env.patternAt (q + 1) 20) (s.env.patternAt (q + 1) 20).toInt]
          afterAccess := s.obs.afterAccess ++ [s.regs.started] } }

/-- CAL_UNIT with a valid fraction (R154, R162): as MEASURE_RAW, and UNIT becomes the difference to ZERO times the
rounded reciprocal of FRACTION, rounded again, a NaN as the canonical one (R152). -/
def Obligations.CalUnitStoresTheScale : Prop :=
  ∀ (s : State) (q : Nat), s.Accepting → s.Meets .calUnit → q < 171 → s.env.ReadyAfter q →
    (∀ i < 20, ValidHigh (s.env.highAt i)) →
    ∃ l : Latches, l.conf = s.latches.conf ∧
      exec .calUnit s = .next { s with
        regs := { s.regs with
          phase := .idle, err := .ok, errinfo := 0
          raw := (s.env.patternAt (q + 1) 20).signExtend 64, rawbits := (s.env.patternAt (q + 1) 20).setWidth 64
          unit := canon (fpMul (fpFromInt ((s.env.patternAt (q + 1) 20).toInt - s.regs.zero.toInt))
            (fpDiv 0x3FF0000000000000 s.regs.fraction))
          pulses := 20, polls := BitVec.ofNat 64 (q + 1), hightime := s.env.highAt 19 }
        latches := l, sclk := .low, todo := [], env := s.env.after (q + 21) 40
        obs := { s.obs with
          trace := s.obs.trace ++ (s.env.pollTrace (q + 1) ++ s.env.bitTrace (q + 1) 20)
          events := s.obs.events ++
            [.sample (s.env.patternAt (q + 1) 20) (s.env.patternAt (q + 1) 20).toInt]
          afterAccess := s.obs.afterAccess ++ [s.regs.started] } }

/-- MEASURE with a nonzero UNIT (R155, R164): as MEASURE_RAW, and RESULT becomes the difference to ZERO divided by UNIT,
rounded once, a NaN as the canonical one (R152). -/
def Obligations.MeasureStoresTheReading : Prop :=
  ∀ (s : State) (q : Nat), s.Accepting → s.Meets .measure → q < 171 → s.env.ReadyAfter q →
    (∀ i < 20, ValidHigh (s.env.highAt i)) →
    ∃ l : Latches, l.conf = s.latches.conf ∧
      exec .measure s = .next { s with
        regs := { s.regs with
          phase := .idle, err := .ok, errinfo := 0
          raw := (s.env.patternAt (q + 1) 20).signExtend 64, rawbits := (s.env.patternAt (q + 1) 20).setWidth 64
          result := canon (fpDiv (fpFromInt ((s.env.patternAt (q + 1) 20).toInt - s.regs.zero.toInt)) s.regs.unit)
          pulses := 20, polls := BitVec.ofNat 64 (q + 1), hightime := s.env.highAt 19 }
        latches := l, sclk := .low, todo := [], env := s.env.after (q + 21) 40
        obs := { s.obs with
          trace := s.obs.trace ++ (s.env.pollTrace (q + 1) ++ s.env.bitTrace (q + 1) 20)
          events := s.obs.events ++
            [.sample (s.env.patternAt (q + 1) 20) (s.env.patternAt (q + 1) 20).toInt]
          afterAccess := s.obs.afterAccess ++ [s.regs.started] } }

/-- RELEASE (R190): the pins are released, `conf` is 0, and the block is RELEASED; every other register keeps its
value. -/
def Obligations.ReleaseTearsDown : Prop :=
  ∀ s : State, s.Accepting →
    ∃ l : Latches, l.conf = false ∧
      exec .release s = .next { s with
        regs := { s.regs with
          phase := .released, err := .ok, errinfo := 0, pulses := 0, polls := 0, hightime := 0 }
        latches := l, sclk := .notDriven, todo := []
        obs := { s.obs with
          trace := s.obs.trace ++ [.releasePins]
          afterAccess := s.obs.afterAccess ++ [s.regs.started] } }

/-! ### Rules about every command -/

/-- Whatever is drawn, a command presented while BUSY is 0 comes to its end: BUSY is 0 (R187). -/
def Obligations.EveryCommandTerminates : Prop :=
  ∀ (s : State) (i : Instr), s.resetAsserted = false → s.regs.busy = false → i.IsCommand →
    ∃ t : State, exec i s = .next t ∧ t.regs.busy = false

/-- Each result register has its own writers: READY only IS_READY (R27), CAL only CALIBRATE, ZERO only CAL_ZERO (R36),
UNIT only CAL_UNIT (R37), RESULT only MEASURE (R38), RAW and RAWBITS only the four acquisitions, FRACTION only a host
write of index 2 (R33). -/
def Obligations.ResultRegistersHaveTheirOwnWriters : Prop :=
  ∀ (s t : State) (i : Instr), exec i s = .next t →
    (t.regs.ready ≠ s.regs.ready → i = .isReady) ∧ (t.regs.cal ≠ s.regs.cal → i = .calibrate) ∧
    (t.regs.zero ≠ s.regs.zero → i = .calZero) ∧ (t.regs.unit ≠ s.regs.unit → i = .calUnit) ∧
    (t.regs.result ≠ s.regs.result → i = .measure) ∧
    (t.regs.raw ≠ s.regs.raw ∨ t.regs.rawbits ≠ s.regs.rawbits → i.Acquires) ∧
    (t.regs.fraction ≠ s.regs.fraction → ∃ w, i = .wr 2 w)

/-- VIOL is sticky (R28): the only instruction that clears it is a CALIBRATE that passes. -/
def Obligations.OnlyAPassingCalibrationClearsViol : Prop :=
  ∀ (s t : State) (i : Instr), exec i s = .next t → s.regs.viol = true → t.regs.viol = false →
    i = .calibrate ∧ t.regs.cal = .passed ∧ t.regs.err = .ok

/-- An instruction emits at most one event (R223). -/
def Obligations.AtMostOneEventPerCommand : Prop :=
  ∀ (s t : State) (i : Instr), exec i s = .next t →
    ∃ evs : List Event, t.obs.events = s.obs.events ++ evs ∧ evs.length ≤ 1

/-- Once released the block stays released and touches no pin, whatever comes but an assertion of reset (R190, R192). -/
def Obligations.ReleasedStaysReleasedUntilReset : Prop :=
  ∀ s t : State, s.regs.phase = .released → s.regs.busy = false → s.todo = [] →
    s.agenda.head? ≠ some .assertReset → step s = .next t →
    t.regs.phase = .released ∧ t.regs.busy = false ∧ t.todo = [] ∧ t.sclk = s.sclk ∧ t.obs.trace = s.obs.trace ∧
      t.latches.conf = s.latches.conf

/-! ### Host and engine side by side -/

/-- A host read changes nothing an engine turn depends on or does (R65, R180). -/
def Obligations.HostReadsDoNotDisturbTheEngine : Prop :=
  ∀ (s r t : State) (idx : Nat), exec (.rd idx) s = .next r → engineTurn s = .next t →
    engineTurn r = .next { t with obs := { t.obs with reads := r.obs.reads, afterAccess := r.obs.afterAccess } }

/-- A FRACTION write while a command runs affects only later commands (R33): every engine turn does what it would have
done, but for FRACTION itself. -/
def Obligations.FractionWriteDoesNotAffectTheRunningCommand : Prop :=
  ∀ (s r t : State) (w : Word), s.resetAsserted = false → exec (.wr 2 w) s = .next r → engineTurn s = .next t →
    engineTurn r = .next { t with
      regs := { t.regs with fraction := w }, obs := { t.obs with afterAccess := r.obs.afterAccess } }

/-- The engine's turns, one after another from the acceptance of a command, reach exactly the state the command alone
reaches, within the bound of R187, and none of them stops. That a command alone runs to its end is the MODEL'S choice
(log entry 8). -/
def Obligations.EngineTurnsReachTheCommandsResult : Prop :=
  ∀ (s r : State) (i : Instr), s.Accepting → s.agenda = [] → i.IsCommand → s.Meets i →
    exec (.wr 0 (commandWord i)) s = .next r →
    ∃ (n : Nat) (t : State), n ≤ commandBound ∧ Host.Core.run core n r = .next t ∧ exec i s = .next t ∧
      t.regs.busy = false

/-! ### Reset and start-up -/

/-- The reset value of every register, `conf`, SCLK and the event list (R54). -/
def Obligations.ResetValues : Prop :=
  regRead State.reset.regs 0 = 0 ∧ statusWord State.reset.regs = 0x1 ∧ State.reset.regs.busy = true ∧
    State.reset.regs.phase = .init ∧
    State.reset.regs.fraction = 0x3FF0000000000000 ∧ State.reset.regs.raw = 0 ∧ State.reset.regs.rawbits = 0 ∧
    State.reset.regs.zero = 0 ∧ State.reset.regs.unit = 0 ∧ State.reset.regs.result = 0 ∧
    State.reset.regs.errinfo = 0 ∧ State.reset.regs.pulses = 0 ∧ State.reset.regs.polls = 0 ∧
    State.reset.regs.hightime = 0 ∧ State.reset.latches.conf = false ∧ State.reset.sclk = .notDriven ∧
    State.reset.obs.events = [] ∧ ∀ n : LatchName, State.reset.latches.isWritten n = false

/-- Asserting reset, at any time (R240): configured pins are released at once, every register and latch takes its reset
value, the start-up is due, and events already emitted stay. What R240 does not say is the MODEL'S: SCLK is not driven
even where the start-up had driven it and `conf` is 0 (log entry 10, DEDUCED, unsafe), and the draws to come (log entry
4), the pin trace, the reads and the observed accesses are kept (log entry 13). -/
def Obligations.AssertingResetTakesEffectAtOnce : Prop :=
  ∀ (s : State) (rest : List Turn), s.agenda = .assertReset :: rest →
    ∃ t : State, step s = .next t ∧ t.regs = State.reset.regs ∧ t.latches = State.reset.latches ∧
      t.sclk = .notDriven ∧ t.resetAsserted = true ∧ t.todo = startUpProgram ∧ t.agenda = rest ∧ t.env = s.env ∧
      t.obs.events = s.obs.events ∧ t.obs.reads = s.obs.reads ∧ t.obs.afterAccess = s.obs.afterAccess ∧
      t.obs.trace = s.obs.trace ++ if s.latches.conf then [.releasePins] else []

/-- While reset is asserted, writes are ignored, a CMD write without OVR (log entry 16), and the engine takes no
micro-step (R240): only the access is observed (R16). -/
def Obligations.HeldResetFreezesTheBlock : Prop :=
  ∀ (s : State) (i : Instr) (idx : Nat) (w : Word), s.resetAsserted = true → idx ≤ 15 → i.IsCommand →
    let t : State := { s with obs := { s.obs with afterAccess := s.obs.afterAccess ++ [s.regs] } }
    exec (.wr idx w) s = .next t ∧ exec i s = .next t ∧ engineTurn s = .next s

/-- From the deassertion of reset, pulses and checks passing, the engine's turns reach the state of R242: pins
configured, IDLE, CAL passed, 26 pulses, no event. -/
def Obligations.StartUpPasses : Prop :=
  ∀ s : State, s.agenda = [] → (∀ i < 26, ValidHigh (s.env.highAt i)) → (∀ j < 4, s.env.levelAt j = true) →
    ∃ (n : Nat) (t : State), Host.Core.run core n s.assertReset.deassertReset = .next t ∧
      t.regs = { resetRegs with
        busy := false, phase := .idle, cal := .passed, pulses := 26, hightime := s.env.highAt 25 } ∧
      t.latches.conf = true ∧ t.sclk = .low ∧ t.todo = [] ∧ t.resetAsserted = false ∧
      t.obs.events = s.obs.events ∧
      t.obs.trace = s.assertReset.obs.trace ++
        (.configure .sclk .output :: .setClk false :: .configure .data .input :: s.env.calTrace 26)

/-- Whatever is drawn, the start-up comes to its end: BUSY 0, IDLE, CAL says how, and the block is usable (R215,
R242). -/
def Obligations.StartUpAlwaysEnds : Prop :=
  ∀ s : State, s.agenda = [] →
    ∃ (n : Nat) (t : State), Host.Core.run core n s.assertReset.deassertReset = .next t ∧ t.Accepting ∧
      t.regs.phase = .idle ∧ t.regs.cal ≠ .none ∧ (t.regs.cal = .passed ↔ t.regs.err = .ok) ∧
      (t.regs.viol = true ↔ t.regs.cal = .aborted) ∧ t.latches.conf = true

/-! ### Invariants of every step -/

/-- RAWBITS holds 20 bits, RAW its sign extension, ZERO a 20-bit sample, after every step (R34, R35, R36). -/
def Obligations.StepKeepsSampleRanges : Prop :=
  ∀ s t : State, s.SampleInv → step s = .next t → t.SampleInv

/-- BUSY is 1 exactly while a sequence runs, and each sequence ends by completing, after every step (R22, R26). -/
def Obligations.StepKeepsEngineShape : Prop :=
  ∀ s t : State, s.EngineInv → step s = .next t → t.EngineInv

/-- SCLK is high only between the two edges of one pulse, after every step (R51). -/
def Obligations.StepKeepsClockLowOutsidePulses : Prop :=
  ∀ s t : State, s.ClockInv → step s = .next t → t.ClockInv

/-- No latch is read before a rule has written it (R47): no step faults, and every step keeps it so. -/
def Obligations.StepNeverReadsAnUnwrittenLatch : Prop :=
  ∀ s : State, s.LatchInv → (∀ f : Fault, step s ≠ .fault f) ∧ ∀ t : State, step s = .next t → t.LatchInv

/-- Time readings never decrease, after every step (R52); how a reading is drawn is log entries 4 and 5. -/
def Obligations.StepKeepsTimeMonotone : Prop :=
  ∀ s t : State, s.TimeInv → step s = .next t → t.TimeInv

/-- The invariants hold at reset. -/
def Obligations.InvariantsHoldAtReset : Prop :=
  State.reset.SampleInv ∧ State.reset.EngineInv ∧ State.reset.ClockInv ∧ State.reset.LatchInv ∧ State.reset.TimeInv ∧
    State.reset.TeardownInv

/-! ### One step -/

/-- A step runs the decoded instruction: the bytes the host presents next, taken off the agenda, which is the MODEL'S
(log entry 6). -/
def Obligations.StepRunsTheDecodedInstruction : Prop :=
  ∀ (s : State) (bytes : List Byte) (rest : List Turn) (i : Instr),
    s.agenda = .frame bytes :: rest → decode bytes = .ok i → step s = exec i { s with agenda := rest }

/-- Bytes that are no instruction: an illegal command word is answered as a write of it to CMD is (R85); anything else is
refused by name (R63). The eight bytes of a word alone are the MODEL'S (log entry 8). -/
def Obligations.StepAnswersIllegalWords : Prop :=
  ∀ (s : State) (bytes : List Byte) (rest : List Turn) (e : DecodeError),
    s.agenda = .frame bytes :: rest → decode bytes = .error e →
    (∀ w, e = .illegalCommand w → step s = exec (.wr 0 w) { s with agenda := rest }) ∧
    ((∀ w, e ≠ .illegalCommand w) → step s = .refused .notATransaction)

/-- The MODEL'S choice of log entry 9: what `withFetchWord` presents is what `step` runs next, a command word in a state
in which it is neither ignored nor dropped, a transaction as the state stands. -/
def Obligations.PresentedWordRunsNext : Prop :=
  ∀ (s : State) (nbits w : Nat) (i : Instr), decodeTableWord nbits w = some i →
    step (s.withFetchWord nbits w) = exec i (if nbits = 64 then s.readyForCommand else s) ∧
    s.readyForCommand.resetAsserted = false ∧ s.readyForCommand.regs.busy = false

/-! ### Numbers -/

/-- The decoder (R130) is two's complement: a bijection from the 20-bit patterns to [−524288, 524287], whose inverse is
`s mod 2^20` (the paragraph R130 derives from itself and R10); RAW (R34, R131) and ZERO (R160) hold its value in 64
bits. -/
def Obligations.Decode20IsTwosComplement : Prop :=
  (∀ v : Sample, decode20 v = v.toInt ∧ -524288 ≤ decode20 v ∧ decode20 v ≤ 524287 ∧
    BitVec.ofInt 20 (decode20 v) = v ∧ (v.signExtend 64).toInt = decode20 v) ∧
  ∀ s : Int, -524288 ≤ s → s ≤ 524287 → decode20 (BitVec.ofInt 20 s) = s ∧ (zeroOf s).toInt = s

/-- The bit read after the `i`-th pulse is bit `20 − i` of the pattern (R60). -/
def Obligations.SerialBitsArriveMostSignificantFirst : Prop :=
  ∀ (e : Env) (first i : Nat), 1 ≤ i → i ≤ 20 →
    (e.patternAt first 20).getLsbD (20 - i) = e.levelAt (first + (i - 1))

/-- `fp_from_int` is exact below 2^53 (R17): the value is the integer, in units of 2^−1075. -/
def Obligations.IntegersConvertExactly : Prop :=
  ∀ n : Int, n.natAbs < 2 ^ 53 →
    fpIsFinite (fpFromInt n) = true ∧ fpUnits (fpFromInt n) = n.natAbs * 2 ^ 1075 ∧
      fpSign (fpFromInt n) = decide (n < 0)

/-- `fp_div` of nonzero finite numbers is the quotient rounded to nearest, ties to even (R17, R151): no finite number is
nearer; of two that are equally near it is the even one; and it is an infinity exactly from half a unit past the
largest finite number on. Magnitudes are in units of 2^−1075. That the block computes IEEE 754 binary64 so is log
entry 15 (PRESUMED). -/
def Obligations.DivisionIsCorrectlyRounded : Prop :=
  ∀ a b : Word, fpIsFinite a = true → fpIsFinite b = true → fpIsZero a = false → fpIsZero b = false →
    fpSign (fpDiv a b) = (fpSign a != fpSign b) ∧ fpIsNaN (fpDiv a b) = false ∧
    (fpIsFinite (fpDiv a b) = false ↔ fpUnits b * ((2 ^ 54 - 1) * 2 ^ 2045) ≤ fpUnits a * 2 ^ 1075) ∧
    ∀ c : Word, fpIsFinite c = true → fpIsFinite (fpDiv a b) = true →
      ((fpUnits a * 2 ^ 1075 : Int) - fpUnits (fpDiv a b) * fpUnits b).natAbs ≤
        ((fpUnits a * 2 ^ 1075 : Int) - fpUnits c * fpUnits b).natAbs ∧
      (fpUnits c ≠ fpUnits (fpDiv a b) →
        ((fpUnits a * 2 ^ 1075 : Int) - fpUnits (fpDiv a b) * fpUnits b).natAbs =
          ((fpUnits a * 2 ^ 1075 : Int) - fpUnits c * fpUnits b).natAbs →
        (fpDiv a b).getLsbD 0 = false)

/-- `fp_mul` of nonzero finite numbers is the product rounded to nearest, ties to even (R17, R151), in the terms of
`DivisionIsCorrectlyRounded` and on the same log entry 15 (PRESUMED). -/
def Obligations.MultiplicationIsCorrectlyRounded : Prop :=
  ∀ a b : Word, fpIsFinite a = true → fpIsFinite b = true → fpIsZero a = false → fpIsZero b = false →
    fpSign (fpMul a b) = (fpSign a != fpSign b) ∧ fpIsNaN (fpMul a b) = false ∧
    (fpIsFinite (fpMul a b) = false ↔ (2 ^ 54 - 1) * 2 ^ 2045 * 2 ^ 1075 ≤ fpUnits a * fpUnits b) ∧
    ∀ c : Word, fpIsFinite c = true → fpIsFinite (fpMul a b) = true →
      ((fpUnits a * fpUnits b : Int) - fpUnits (fpMul a b) * 2 ^ 1075).natAbs ≤
        ((fpUnits a * fpUnits b : Int) - fpUnits c * 2 ^ 1075).natAbs ∧
      (fpUnits c ≠ fpUnits (fpMul a b) →
        ((fpUnits a * fpUnits b : Int) - fpUnits (fpMul a b) * 2 ^ 1075).natAbs =
          ((fpUnits a * fpUnits b : Int) - fpUnits c * 2 ^ 1075).natAbs →
        (fpMul a b).getLsbD 0 = false)

/-- A reading with an exceptional UNIT (R155, R158): zero over a nonzero finite or infinite UNIT is the zero with UNIT's
sign; a nonzero difference over an infinity is a zero with the sign of the quotient; over a NaN it is the canonical
NaN. -/
def Obligations.ReadingsWithExceptionalOperands : Prop :=
  ∀ (d : Int) (u : Word),
    (fpIsNaN u = false → fpIsZero u = false → readingOf 0 u = if fpSign u then 0x8000000000000000 else 0) ∧
    (fpIsInf u = true → d ≠ 0 → d.natAbs < 2 ^ 53 →
      readingOf d u = if decide (d < 0) != fpSign u then 0x8000000000000000 else 0) ∧
    (fpIsNaN u = true → readingOf d u = 0x7FF8000000000000)

/-- A NaN in UNIT or RESULT is the canonical quiet NaN (R152). -/
def Obligations.OnlyTheCanonicalNaNIsStored : Prop :=
  ∀ (d : Int) (f u : Word),
    (fpIsNaN (unitOf d f) = true → unitOf d f = 0x7FF8000000000000) ∧
    (fpIsNaN (readingOf d u) = true → readingOf d u = 0x7FF8000000000000)

/-- The two roundings of R154 differ from one division: `d = 5`, `f = 3.0`. -/
def Obligations.UnitScaleIsRoundedTwice : Prop :=
  unitOf 5 0x4008000000000000 = 0x3FFAAAAAAAAAAAAA ∧
    fpDiv (fpFromInt 5) 0x4008000000000000 = 0x3FFAAAAAAAAAAAAB

/-- Byte `8i + j` of a bridged port holds bits `8j + 7` to `8j` of register `i` (R61). -/
def Obligations.BridgeIsLittleEndian : Prop :=
  ∀ (r : Regs) (i j b : Nat), i < 16 → j < 8 → b < 8 →
    (bridgeByte r (8 * i + j)).getLsbD b = (regRead r i).getLsbD (8 * j + b)

/-! ### Observation and teardown -/

/-- The host-visible registers after each host access are observed (R16): after a read or a write as it leaves them, after
a command alone as the write of its word to CMD leaves them (log entry 8); an engine turn observes no access. -/
def Obligations.HostAccessesAreObserved : Prop :=
  ∀ s t : State,
    (∀ idx, exec (.rd idx) s = .next t → t.obs.afterAccess = s.obs.afterAccess ++ [t.regs]) ∧
    (∀ idx w, exec (.wr idx w) s = .next t → t.obs.afterAccess = s.obs.afterAccess ++ [t.regs]) ∧
    (∀ i, i.IsCommand → exec i s = .next t →
      ∃ u : State, exec (.wr 0 (commandWord i)) s = .next u ∧ t.obs.afterAccess = s.obs.afterAccess ++ [u.regs]) ∧
    (engineTurn s = .next t → t.obs.afterAccess = s.obs.afterAccess)

/-- The pins are released exactly once for one construction (R191), after every step: not yet while they are configured,
once when the block is released, and never again before the next start-up configures them. That the teardown is one step
is log entry 3 (DEDUCED). -/
def Obligations.StepKeepsOneTeardown : Prop :=
  ∀ s t : State, s.TeardownInv → step s = .next t → t.TeardownInv
end

