-- ==== Sys2Proof/Laws/Env.lean ====
section
/-! SUPPORT. Lemmas about the draws: how the draws to come shift when one is made. -/

namespace Sys2Proof.Machine

@[simp] theorem Env.levelAt_afterLevel (e : Env) (i : Nat) : e.afterLevel.levelAt i = e.levelAt (i + 1) := by
  simp [Env.levelAt, Env.afterLevel, Nat.add_assoc, Nat.add_comm 1]

@[simp] theorem Env.timeAt_afterLevel (e : Env) (i : Nat) : e.afterLevel.timeAt i = e.timeAt i := rfl

@[simp] theorem Env.lastNow_afterLevel (e : Env) : e.afterLevel.lastNow = e.lastNow := rfl

@[simp] theorem Env.readingAt_afterLevel (e : Env) (i : Nat) : e.afterLevel.readingAt i = e.readingAt i := by
  induction i with
  | zero => rfl
  | succ i ih => simp [Env.readingAt, ih]

@[simp] theorem Env.levelAt_afterReading (e : Env) (i : Nat) : e.afterReading.levelAt i = e.levelAt i := rfl

@[simp] theorem Env.timeAt_afterReading (e : Env) (i : Nat) : e.afterReading.timeAt i = e.timeAt (i + 1) := by
  simp [Env.timeAt, Env.afterReading, Nat.add_assoc, Nat.add_comm 1]

@[simp] theorem Env.lastNow_afterReading (e : Env) : e.afterReading.lastNow = e.readingAt 0 := rfl

@[simp] theorem Env.readingAt_afterReading (e : Env) (i : Nat) :
    e.afterReading.readingAt i = e.readingAt (i + 1) := by
  induction i with
  | zero => simp [Env.readingAt]
  | succ i ih => rw [Env.readingAt, ih, Env.timeAt_afterReading]; rfl

theorem monotone_ge (last shown : Word) : last ≤ monotone last shown := by
  unfold monotone
  split <;> simp_all [BitVec.le_def, BitVec.lt_def]

/-- Readings never decrease (R52). -/
theorem Env.readingAt_mono (e : Env) (i : Nat) : e.readingAt i ≤ e.readingAt (i + 1) := monotone_ge _ _

theorem Env.lastNow_le_readingAt (e : Env) : e.lastNow ≤ e.readingAt 0 := monotone_ge _ _

@[simp] theorem Env.after_zero (e : Env) : e.after 0 0 = e := rfl

@[simp] theorem Env.levelAt_after (e : Env) (nl nr i : Nat) : (e.after nl nr).levelAt i = e.levelAt (nl + i) := by
  simp [Env.levelAt, Env.after, Nat.add_assoc]

@[simp] theorem Env.timeAt_after (e : Env) (nl nr i : Nat) : (e.after nl nr).timeAt i = e.timeAt (nr + i) := by
  simp [Env.timeAt, Env.after, Nat.add_assoc]

@[simp] theorem Env.readingAt_after (e : Env) (nl nr i : Nat) :
    (e.after nl nr).readingAt i = e.readingAt (nr + i) := by
  induction i with
  | zero =>
    cases nr with
    | zero => simp [Env.readingAt, Env.after, afterLast, Env.timeAt]
    | succ n => simp only [Env.readingAt, Env.timeAt_after]; rfl
  | succ i ih => rw [Env.readingAt, ih, Env.timeAt_after]; rfl

@[simp] theorem Env.highAt_after (e : Env) (nl n i : Nat) :
    (e.after nl (2 * n)).highAt i = e.highAt (n + i) := by
  simp only [Env.highAt, Env.readingAt_after]
  congr 2 <;> omega

theorem Env.afterLevel_eq (e : Env) : e.afterLevel = e.after 1 0 := by
  simp [Env.afterLevel, Env.after, afterLast]

theorem Env.afterReading_eq (e : Env) : e.afterReading = e.after 0 1 := by
  simp [Env.afterReading, Env.after, afterLast]

theorem Env.after_after (e : Env) (nl nr ml mr : Nat) :
    (e.after nl nr).after ml mr = e.after (nl + ml) (nr + mr) := by
  have h : afterLast (e.after nl nr).lastNow (e.after nl nr).readingAt mr =
      afterLast e.lastNow e.readingAt (nr + mr) := by
    cases mr with
    | zero => rfl
    | succ m => simp [afterLast]
  simp only [Env.after] at h ⊢
  simp [h, Nat.add_assoc]

end Sys2Proof.Machine
end

