-- ==== Sys2Proof/Laws/State.lean ====
section
/-! SUPPORT. One lemma for each field after each shared operation, so that no proof unfolds a record update. -/

namespace Sys2Proof.Machine

@[simp] theorem Latch.of_value {α : Type} (v : α) : (Latch.of v).value = v := rfl

@[simp] theorem Latch.of_written {α : Type} (v : α) : (Latch.of v).written = true := rfl

@[simp] theorem State.record_regs (s : State) (p : PinStep) : (s.record p).regs = s.regs := rfl

@[simp] theorem State.record_latches (s : State) (p : PinStep) : (s.record p).latches = s.latches := rfl

@[simp] theorem State.record_sclk (s : State) (p : PinStep) : (s.record p).sclk = s.sclk := rfl

@[simp] theorem State.record_resetAsserted (s : State) (p : PinStep) :
    (s.record p).resetAsserted = s.resetAsserted := rfl

@[simp] theorem State.record_todo (s : State) (p : PinStep) : (s.record p).todo = s.todo := rfl

@[simp] theorem State.record_env (s : State) (p : PinStep) : (s.record p).env = s.env := rfl

@[simp] theorem State.record_obs (s : State) (p : PinStep) :
    (s.record p).obs = { s.obs with trace := s.obs.trace ++ [p] } := rfl

@[simp] theorem State.record_agenda (s : State) (p : PinStep) : (s.record p).agenda = s.agenda := rfl

@[simp] theorem State.emit_regs (s : State) (evs : List Event) : (s.emit evs).regs = s.regs := rfl

@[simp] theorem State.emit_latches (s : State) (evs : List Event) : (s.emit evs).latches = s.latches := rfl

@[simp] theorem State.emit_sclk (s : State) (evs : List Event) : (s.emit evs).sclk = s.sclk := rfl

@[simp] theorem State.emit_resetAsserted (s : State) (evs : List Event) :
    (s.emit evs).resetAsserted = s.resetAsserted := rfl

@[simp] theorem State.emit_todo (s : State) (evs : List Event) : (s.emit evs).todo = s.todo := rfl

@[simp] theorem State.emit_env (s : State) (evs : List Event) : (s.emit evs).env = s.env := rfl

@[simp] theorem State.emit_obs (s : State) (evs : List Event) :
    (s.emit evs).obs = { s.obs with events := s.obs.events ++ evs } := rfl

@[simp] theorem State.emit_agenda (s : State) (evs : List Event) : (s.emit evs).agenda = s.agenda := rfl

@[simp] theorem State.observe_regs (s : State) : (s.observe).regs = s.regs := rfl

@[simp] theorem State.observe_latches (s : State) : (s.observe).latches = s.latches := rfl

@[simp] theorem State.observe_sclk (s : State) : (s.observe).sclk = s.sclk := rfl

@[simp] theorem State.observe_resetAsserted (s : State) : (s.observe).resetAsserted = s.resetAsserted := rfl

@[simp] theorem State.observe_todo (s : State) : (s.observe).todo = s.todo := rfl

@[simp] theorem State.observe_env (s : State) : (s.observe).env = s.env := rfl

@[simp] theorem State.observe_obs (s : State) :
    (s.observe).obs = { s.obs with afterAccess := s.obs.afterAccess ++ [s.regs] } := rfl

@[simp] theorem State.observe_agenda (s : State) : (s.observe).agenda = s.agenda := rfl

@[simp] theorem State.configure_regs (s : State) (pin : Pin) (dir : Direction) :
    (s.configure pin dir).regs = s.regs := rfl

@[simp] theorem State.configure_latches (s : State) (pin : Pin) (dir : Direction) :
    (s.configure pin dir).latches = s.latches := rfl

@[simp] theorem State.configure_sclk (s : State) (pin : Pin) (dir : Direction) :
    (s.configure pin dir).sclk = s.sclk := rfl

@[simp] theorem State.configure_resetAsserted (s : State) (pin : Pin) (dir : Direction) :
    (s.configure pin dir).resetAsserted = s.resetAsserted := rfl

@[simp] theorem State.configure_todo (s : State) (pin : Pin) (dir : Direction) :
    (s.configure pin dir).todo = s.todo := rfl

@[simp] theorem State.configure_env (s : State) (pin : Pin) (dir : Direction) :
    (s.configure pin dir).env = s.env := rfl

@[simp] theorem State.configure_obs (s : State) (pin : Pin) (dir : Direction) :
    (s.configure pin dir).obs = { s.obs with trace := s.obs.trace ++ [.configure pin dir] } := rfl

@[simp] theorem State.configure_agenda (s : State) (pin : Pin) (dir : Direction) :
    (s.configure pin dir).agenda = s.agenda := rfl

@[simp] theorem State.driveClk_regs (s : State) (b : Bool) : (s.driveClk b).regs = s.regs := rfl

@[simp] theorem State.driveClk_latches (s : State) (b : Bool) : (s.driveClk b).latches = s.latches := rfl

@[simp] theorem State.driveClk_sclk (s : State) (b : Bool) : (s.driveClk b).sclk = if b then .high else .low := rfl

@[simp] theorem State.driveClk_resetAsserted (s : State) (b : Bool) :
    (s.driveClk b).resetAsserted = s.resetAsserted := rfl

@[simp] theorem State.driveClk_todo (s : State) (b : Bool) : (s.driveClk b).todo = s.todo := rfl

@[simp] theorem State.driveClk_env (s : State) (b : Bool) : (s.driveClk b).env = s.env := rfl

@[simp] theorem State.driveClk_obs (s : State) (b : Bool) :
    (s.driveClk b).obs = { s.obs with trace := s.obs.trace ++ [.setClk b] } := rfl

@[simp] theorem State.driveClk_agenda (s : State) (b : Bool) : (s.driveClk b).agenda = s.agenda := rfl

@[simp] theorem State.sleep_regs (s : State) (ns : Nat) : (s.sleep ns).regs = s.regs := rfl

@[simp] theorem State.sleep_latches (s : State) (ns : Nat) : (s.sleep ns).latches = s.latches := rfl

@[simp] theorem State.sleep_sclk (s : State) (ns : Nat) : (s.sleep ns).sclk = s.sclk := rfl

@[simp] theorem State.sleep_resetAsserted (s : State) (ns : Nat) : (s.sleep ns).resetAsserted = s.resetAsserted := rfl

@[simp] theorem State.sleep_todo (s : State) (ns : Nat) : (s.sleep ns).todo = s.todo := rfl

@[simp] theorem State.sleep_env (s : State) (ns : Nat) : (s.sleep ns).env = s.env := rfl

@[simp] theorem State.sleep_obs (s : State) (ns : Nat) :
    (s.sleep ns).obs = { s.obs with trace := s.obs.trace ++ [.sleep ns] } := rfl

@[simp] theorem State.sleep_agenda (s : State) (ns : Nat) : (s.sleep ns).agenda = s.agenda := rfl

@[simp] theorem State.releasePins_regs (s : State) : (s.releasePins).regs = s.regs := rfl

@[simp] theorem State.releasePins_latches (s : State) : (s.releasePins).latches = s.latches := rfl

@[simp] theorem State.releasePins_sclk (s : State) : (s.releasePins).sclk = .notDriven := rfl

@[simp] theorem State.releasePins_resetAsserted (s : State) : (s.releasePins).resetAsserted = s.resetAsserted := rfl

@[simp] theorem State.releasePins_todo (s : State) : (s.releasePins).todo = s.todo := rfl

@[simp] theorem State.releasePins_env (s : State) : (s.releasePins).env = s.env := rfl

@[simp] theorem State.releasePins_obs (s : State) :
    (s.releasePins).obs = { s.obs with trace := s.obs.trace ++ [.releasePins] } := rfl

@[simp] theorem State.releasePins_agenda (s : State) : (s.releasePins).agenda = s.agenda := rfl

@[simp] theorem State.teardown_regs (s : State) : (s.teardown).regs = s.regs := rfl

@[simp] theorem State.teardown_latches (s : State) : (s.teardown).latches = { s.latches with conf := false } := rfl

@[simp] theorem State.teardown_sclk (s : State) : (s.teardown).sclk = .notDriven := rfl

@[simp] theorem State.teardown_resetAsserted (s : State) : (s.teardown).resetAsserted = s.resetAsserted := rfl

@[simp] theorem State.teardown_todo (s : State) : (s.teardown).todo = s.todo := rfl

@[simp] theorem State.teardown_env (s : State) : (s.teardown).env = s.env := rfl

@[simp] theorem State.teardown_obs (s : State) :
    (s.teardown).obs = { s.obs with trace := s.obs.trace ++ [.releasePins] } := rfl

@[simp] theorem State.teardown_agenda (s : State) : (s.teardown).agenda = s.agenda := rfl

@[simp] theorem State.readData_regs (s : State) : (s.readData).regs = s.regs := rfl

@[simp] theorem State.readData_latches (s : State) :
    (s.readData).latches = { s.latches with d := .of (s.env.levelAt 0) } := rfl

@[simp] theorem State.readData_sclk (s : State) : (s.readData).sclk = s.sclk := rfl

@[simp] theorem State.readData_resetAsserted (s : State) : (s.readData).resetAsserted = s.resetAsserted := rfl

@[simp] theorem State.readData_todo (s : State) : (s.readData).todo = s.todo := rfl

@[simp] theorem State.readData_env (s : State) : (s.readData).env = s.env.afterLevel := rfl

@[simp] theorem State.readData_obs (s : State) :
    (s.readData).obs = { s.obs with trace := s.obs.trace ++ [.readData (s.env.levelAt 0)] } := rfl

@[simp] theorem State.readData_agenda (s : State) : (s.readData).agenda = s.agenda := rfl

@[simp] theorem State.readT0_regs (s : State) : (s.readT0).regs = s.regs := rfl

@[simp] theorem State.readT0_latches (s : State) :
    (s.readT0).latches = { s.latches with t0 := .of (s.env.readingAt 0) } := rfl

@[simp] theorem State.readT0_sclk (s : State) : (s.readT0).sclk = s.sclk := rfl

@[simp] theorem State.readT0_resetAsserted (s : State) : (s.readT0).resetAsserted = s.resetAsserted := rfl

@[simp] theorem State.readT0_todo (s : State) : (s.readT0).todo = s.todo := rfl

@[simp] theorem State.readT0_env (s : State) : (s.readT0).env = s.env.afterReading := rfl

@[simp] theorem State.readT0_obs (s : State) :
    (s.readT0).obs = { s.obs with trace := s.obs.trace ++ [.now (s.env.readingAt 0)] } := rfl

@[simp] theorem State.readT0_agenda (s : State) : (s.readT0).agenda = s.agenda := rfl

@[simp] theorem State.readT1_regs (s : State) : (s.readT1).regs = s.regs := rfl

@[simp] theorem State.readT1_latches (s : State) :
    (s.readT1).latches = { s.latches with t1 := .of (s.env.readingAt 0) } := rfl

@[simp] theorem State.readT1_sclk (s : State) : (s.readT1).sclk = s.sclk := rfl

@[simp] theorem State.readT1_resetAsserted (s : State) : (s.readT1).resetAsserted = s.resetAsserted := rfl

@[simp] theorem State.readT1_todo (s : State) : (s.readT1).todo = s.todo := rfl

@[simp] theorem State.readT1_env (s : State) : (s.readT1).env = s.env.afterReading := rfl

@[simp] theorem State.readT1_obs (s : State) :
    (s.readT1).obs = { s.obs with trace := s.obs.trace ++ [.now (s.env.readingAt 0)] } := rfl

@[simp] theorem State.readT1_agenda (s : State) : (s.readT1).agenda = s.agenda := rfl

@[simp] theorem State.terminate_regs (s : State) (code : ResultCode) (info : Word) :
    (s.terminate code info).regs = terminateRegs s.regs s.latches.cmdL.value code info := rfl

@[simp] theorem State.terminate_latches (s : State) (code : ResultCode) (info : Word) :
    (s.terminate code info).latches = s.latches := rfl

@[simp] theorem State.terminate_sclk (s : State) (code : ResultCode) (info : Word) :
    (s.terminate code info).sclk = s.sclk := rfl

@[simp] theorem State.terminate_resetAsserted (s : State) (code : ResultCode) (info : Word) :
    (s.terminate code info).resetAsserted = s.resetAsserted := rfl

@[simp] theorem State.terminate_todo (s : State) (code : ResultCode) (info : Word) :
    (s.terminate code info).todo = [] := rfl

@[simp] theorem State.terminate_env (s : State) (code : ResultCode) (info : Word) :
    (s.terminate code info).env = s.env := rfl

@[simp] theorem State.terminate_obs (s : State) (code : ResultCode) (info : Word) :
    (s.terminate code info).obs = { s.obs with events := s.obs.events ++ failureEvents code info } := rfl

@[simp] theorem State.terminate_agenda (s : State) (code : ResultCode) (info : Word) :
    (s.terminate code info).agenda = s.agenda := rfl

@[simp] theorem State.reject_regs (s : State) (code : ResultCode) (info : Word) : (s.reject code info).regs =
    { s.regs with err := code, errinfo := info, pulses := 0, polls := 0, hightime := 0 } := rfl

@[simp] theorem State.reject_latches (s : State) (code : ResultCode) (info : Word) :
    (s.reject code info).latches = s.latches := rfl

@[simp] theorem State.reject_sclk (s : State) (code : ResultCode) (info : Word) :
    (s.reject code info).sclk = s.sclk := rfl

@[simp] theorem State.reject_resetAsserted (s : State) (code : ResultCode) (info : Word) :
    (s.reject code info).resetAsserted = s.resetAsserted := rfl

@[simp] theorem State.reject_todo (s : State) (code : ResultCode) (info : Word) :
    (s.reject code info).todo = s.todo := rfl

@[simp] theorem State.reject_env (s : State) (code : ResultCode) (info : Word) :
    (s.reject code info).env = s.env := rfl

@[simp] theorem State.reject_obs (s : State) (code : ResultCode) (info : Word) :
    (s.reject code info).obs = { s.obs with events := s.obs.events ++ [.rejected code info] } := rfl

@[simp] theorem State.reject_agenda (s : State) (code : ResultCode) (info : Word) :
    (s.reject code info).agenda = s.agenda := rfl

@[simp] theorem State.start_regs (s : State) (i : Instr) : (s.start i).regs = s.regs.started := rfl

@[simp] theorem Regs.started_eq (r : Regs) : r.started =
    { r with busy := true, err := .ok, errinfo := 0, pulses := 0, polls := 0, hightime := 0 } := rfl

@[simp] theorem State.start_latches (s : State) (i : Instr) : (s.start i).latches =
    { s.latches with
      cmdL := .of (opcode i)
      fracL := if i = .calUnit then .of s.regs.fraction else s.latches.fracL } := rfl

@[simp] theorem State.start_sclk (s : State) (i : Instr) : (s.start i).sclk = s.sclk := rfl

@[simp] theorem State.start_resetAsserted (s : State) (i : Instr) : (s.start i).resetAsserted = s.resetAsserted := rfl

@[simp] theorem State.start_todo (s : State) (i : Instr) : (s.start i).todo = programOf i := rfl

@[simp] theorem State.start_env (s : State) (i : Instr) : (s.start i).env = s.env := rfl

@[simp] theorem State.start_obs (s : State) (i : Instr) : (s.start i).obs = s.obs := rfl

@[simp] theorem State.start_agenda (s : State) (i : Instr) : (s.start i).agenda = s.agenda := rfl

@[simp] theorem State.hostRead_regs (s : State) (idx : Nat) : (s.hostRead idx).regs = s.regs := rfl

@[simp] theorem State.hostRead_latches (s : State) (idx : Nat) : (s.hostRead idx).latches = s.latches := rfl

@[simp] theorem State.hostRead_sclk (s : State) (idx : Nat) : (s.hostRead idx).sclk = s.sclk := rfl

@[simp] theorem State.hostRead_resetAsserted (s : State) (idx : Nat) :
    (s.hostRead idx).resetAsserted = s.resetAsserted := rfl

@[simp] theorem State.hostRead_todo (s : State) (idx : Nat) : (s.hostRead idx).todo = s.todo := rfl

@[simp] theorem State.hostRead_env (s : State) (idx : Nat) : (s.hostRead idx).env = s.env := rfl

@[simp] theorem State.hostRead_obs (s : State) (idx : Nat) :
    (s.hostRead idx).obs = { s.obs with
      reads := s.obs.reads ++ [(idx, regRead s.regs idx)], afterAccess := s.obs.afterAccess ++ [s.regs] } := rfl

@[simp] theorem State.hostRead_agenda (s : State) (idx : Nat) : (s.hostRead idx).agenda = s.agenda := rfl

@[simp] theorem State.hostWrite_eq (s : State) (idx : Nat) (w : Word) :
    s.hostWrite idx w = (s.regWrite idx w).observe := rfl

@[simp] theorem State.deassertReset_regs (s : State) : (s.deassertReset).regs = s.regs := rfl

@[simp] theorem State.deassertReset_latches (s : State) : (s.deassertReset).latches = s.latches := rfl

@[simp] theorem State.deassertReset_sclk (s : State) : (s.deassertReset).sclk = s.sclk := rfl

@[simp] theorem State.deassertReset_resetAsserted (s : State) : (s.deassertReset).resetAsserted = false := rfl

@[simp] theorem State.deassertReset_todo (s : State) : (s.deassertReset).todo = s.todo := rfl

@[simp] theorem State.deassertReset_env (s : State) : (s.deassertReset).env = s.env := rfl

@[simp] theorem State.deassertReset_obs (s : State) : (s.deassertReset).obs = s.obs := rfl

@[simp] theorem State.deassertReset_agenda (s : State) : (s.deassertReset).agenda = s.agenda := rfl

@[simp] theorem State.raise_eq (s : State) (code : ResultCode) (info : Word) :
    s.raise code info = s.terminate code info := rfl

@[simp] theorem State.complete_eq (s : State) : s.complete = s.terminate .ok 0 := rfl

@[simp] theorem terminateRegs_busy (r : Regs) (cmd : BitVec 8) (code : ResultCode) (info : Word) :
    (terminateRegs r cmd code info).busy = false := rfl

@[simp] theorem releases_nil : releases [] = 0 := rfl

/-- How one more pin action counts among the releases of a construction (R191). -/
@[simp] theorem releases_append_singleton (trace : List PinStep) (p : PinStep) :
    releases (trace ++ [p]) =
      match p with
      | .configure .sclk _ => 0
      | .releasePins => releases trace + 1
      | _ => releases trace := by
  rw [releases, List.foldl_append]
  rfl

/-- What asserting reset leaves (R240): all of it but the pin trace is independent of the state before. -/
theorem State.assertReset_eq (s : State) :
    s.assertReset =
      { regs := resetRegs, latches := resetLatches, sclk := .notDriven, resetAsserted := true, todo := startUpProgram
        env := s.env, agenda := s.agenda
        obs := { s.obs with trace := s.obs.trace ++ if s.latches.conf then [.releasePins] else [] } } := by
  unfold State.assertReset
  cases s.latches.conf <;> simp

end Sys2Proof.Machine
end

