-- ==== Sys2Proof/Laws/Run.lean ====
section
/-! SUPPORT. How a sequence of micro-steps runs: one micro-step, one pulse, one data-line read, and the composition of
runs. -/

namespace Sys2Proof.Machine

@[simp] theorem State.runToEnd_zero (s : State) : s.runToEnd 0 = s := rfl

/-- A run stops where BUSY is 0. -/
theorem State.runToEnd_idle (s : State) (n : Nat) (hb : s.regs.busy = false) : s.runToEnd n = s := by
  cases n <;> simp [State.runToEnd, hb]

/-- A run that goes on takes the micro-step at the head of the sequence. -/
theorem State.run_op (s : State) (op : MicroOp) (rest : List MicroOp) (n : Nat)
    (hr : s.resetAsserted = false) (hb : s.regs.busy = true) :
    { s with todo := op :: rest }.runToEnd (n + 1) = ({ s with todo := rest }.runOp op).runToEnd n := by
  simp [State.runToEnd, State.microStep, hr, hb]

/-- The same, for a state whose sequence is known by an equation. -/
theorem State.run_head (s : State) (op : MicroOp) (rest : List MicroOp) (n : Nat) (ht : s.todo = op :: rest)
    (hr : s.resetAsserted = false) (hb : s.regs.busy = true) :
    s.runToEnd (n + 1) = ({ s with todo := rest }.runOp op).runToEnd n := by
  simp [State.runToEnd, State.microStep, ht, hr, hb]

/-- A run in two parts. -/
theorem State.runToEnd_add (a b : Nat) (s : State) : s.runToEnd (a + b) = (s.runToEnd a).runToEnd b := by
  induction a generalizing s with
  | zero => simp
  | succ a ih =>
    rw [Nat.succ_add]
    by_cases hb : s.regs.busy = true
    · simp only [State.runToEnd, hb, if_true]; exact ih _
    · simp only [Bool.not_eq_true] at hb
      rw [s.runToEnd_idle _ hb, s.runToEnd_idle _ hb, s.runToEnd_idle _ hb]

/-- A run that has ended does not change with more micro-steps allowed. -/
theorem State.runToEnd_of_done (s t : State) (a n : Nat) (h : s.runToEnd a = t) (ht : t.regs.busy = false)
    (hn : a ≤ n) : s.runToEnd n = t := by
  obtain ⟨b, rfl⟩ := Nat.exists_eq_add_of_le hn
  rw [s.runToEnd_add, h, t.runToEnd_idle _ ht]

theorem loopOps_succ (f : Nat → List MicroOp) (n k : Nat) :
    loopOps f (n + 1) k = loopOps f n k ++ f (k + n) := by
  induction n generalizing k with
  | zero => simp [loopOps]
  | succ n ih =>
    rw [loopOps, ih, loopOps, List.append_assoc]
    simp [Nat.add_assoc, Nat.add_comm 1]

/-- A loop cut after its first `m` turns. -/
theorem loopOps_add (f : Nat → List MicroOp) (m n k : Nat) :
    loopOps f (m + n) k = loopOps f m k ++ loopOps f n (k + m) := by
  induction m generalizing k with
  | zero => simp [loopOps]
  | succ m ih =>
    rw [Nat.succ_add, loopOps, ih, loopOps, List.append_assoc]
    simp [Nat.add_assoc, Nat.add_comm 1]

/-- `s` after `np` valid pulses and `nl` data-line reads, with the trace `tr` and the latches `l` they leave. -/
def State.ran (s : State) (np nl : Nat) (tr : List PinStep) (l : Latches) : State :=
  { s with
    regs := { s.regs with
      pulses := s.regs.pulses + BitVec.ofNat 64 np
      hightime := afterLast s.regs.hightime s.env.highAt np }
    latches := l
    sclk := afterLast s.sclk (fun _ => .low) np
    env := s.env.after nl (2 * np)
    obs := { s.obs with trace := s.obs.trace ++ tr } }

theorem State.ran_zero (s : State) : s.ran 0 0 [] s.latches = s := by
  simp [State.ran, afterLast]

/-- The latches after a pulse that measured between two readings. -/
def Latches.measured (l : Latches) (t0 t1 : Word) : Latches :=
  { l with t0 := .of t0, t1 := .of t1, h := .of (t1 - t0) }

/-- The latches after a counted pulse that measured between two readings. -/
def Latches.pulsed (l : Latches) (k : Nat) (t0 t1 : Word) : Latches := { l with k := .of k }.measured t0 t1

theorem Env.twoReadings (e : Env) (nl np : Nat) :
    (e.after nl (2 * np)).afterReading.afterReading = e.after nl (2 * (np + 1)) := by
  rw [Env.afterReading_eq, Env.afterReading_eq, Env.after_after, Env.after_after]; rfl

theorem Word.add_ofNat_succ (w : Word) (n : Nat) : w + BitVec.ofNat 64 n + 1 = w + BitVec.ofNat 64 (n + 1) := by
  rw [BitVec.add_assoc, BitVec.ofNat_add]
  rfl

/-- The micro-steps of a pulse up to its validation. -/
theorem State.run_pulse_validate (s : State) (np nl : Nat) (tr : List PinStep) (l : Latches)
    (rest : List MicroOp) (n : Nat) (hr : s.resetAsserted = false) (hb : s.regs.busy = true) :
    { s.ran np nl tr l with todo := pulseOps ++ rest }.runToEnd (n + 8) =
      { s.ran (np + 1) nl (tr ++ s.env.pulseTrace np)
        (l.measured (s.env.readingAt (2 * np)) (s.env.readingAt (2 * np + 1))) with todo := rest }.validate.runToEnd n := by
  have e := s.env.twoReadings nl np
  have w := Word.add_ofNat_succ s.regs.pulses np
  have r0 : (s.env.after nl (2 * np)).readingAt 0 = s.env.readingAt (2 * np) := by simp
  have r1 : (s.env.after nl (2 * np)).afterReading.readingAt 0 = s.env.readingAt (2 * np + 1) := by simp
  have raw : { s.ran np nl tr l with todo := pulseOps ++ rest }.runToEnd (n + 8) =
      State.runToEnd n (State.validate
        { s.ran np nl tr l with
          regs := { (s.ran np nl tr l).regs with
            pulses := s.regs.pulses + BitVec.ofNat 64 np + 1
            hightime := (s.env.after nl (2 * np)).afterReading.readingAt 0 - (s.env.after nl (2 * np)).readingAt 0 }
          latches := l.measured ((s.env.after nl (2 * np)).readingAt 0)
            ((s.env.after nl (2 * np)).afterReading.readingAt 0)
          sclk := .low
          env := (s.env.after nl (2 * np)).afterReading.afterReading
          obs := { s.obs with trace := s.obs.trace ++ tr ++
            [.now ((s.env.after nl (2 * np)).readingAt 0)] ++ [.setClk true] ++ [.setClk false] ++
            [.now ((s.env.after nl (2 * np)).afterReading.readingAt 0)] }
          todo := rest }) := by
    simp [pulseOps, State.runToEnd, State.microStep, State.runOp, State.ran, Latches.measured, hr, hb]
  rw [raw, e, w, r0, r1]
  simp [State.ran, afterLast, Env.pulseTrace, Env.highAt]

theorem validate_pass (s : State) (h : ValidHigh s.latches.h.value) : s.validate = s := by
  obtain ⟨h1, h2⟩ := h
  simp [State.validate, Nat.not_lt.mpr h1, Nat.not_lt.mpr h2]

theorem validate_fail (s : State) (h : ¬ValidHigh s.latches.h.value) :
    s.validate = s.terminate (violationCode s.latches.h.value) s.latches.h.value := by
  unfold State.validate violationCode
  by_cases h1 : s.latches.h.value.toNat < Config.tHighMinNs
  · simp [h1]
  · have h2 : s.latches.h.value.toNat > Config.tHighMaxNs := by
      by_contra h2; exact h ⟨Nat.not_lt.mp h1, Nat.not_lt.mp h2⟩
    simp [h1, h2]

/-- The step that sets the loop counter. -/
theorem State.run_setK (s : State) (np nl : Nat) (tr : List PinStep) (l : Latches) (k : Nat) (rest : List MicroOp)
    (n : Nat) (hr : s.resetAsserted = false) (hb : s.regs.busy = true) :
    { s.ran np nl tr l with todo := .setK k :: rest }.runToEnd (n + 1) =
      { s.ran np nl tr { l with k := .of k } with todo := rest }.runToEnd n := by
  rw [State.run_op _ _ _ _ (by exact hr) (by exact hb)]
  rfl

/-- One pulse that passes, with no counter set before it (R105). -/
theorem State.run_pulse_only (s : State) (np nl : Nat) (tr : List PinStep) (l : Latches)
    (rest : List MicroOp) (n : Nat) (hr : s.resetAsserted = false) (hb : s.regs.busy = true)
    (hv : ValidHigh (s.env.highAt np)) :
    { s.ran np nl tr l with todo := pulseOps ++ rest }.runToEnd (n + 8) =
      { s.ran (np + 1) nl (tr ++ s.env.pulseTrace np)
        (l.measured (s.env.readingAt (2 * np)) (s.env.readingAt (2 * np + 1))) with todo := rest }.runToEnd n := by
  rw [s.run_pulse_validate np nl tr l rest n hr hb, validate_pass _ hv]

/-- One pulse that violates, with no counter set before it (R104). -/
theorem State.run_pulse_only_violation (s : State) (np nl : Nat) (tr : List PinStep) (l : Latches)
    (rest : List MicroOp) (n : Nat) (hr : s.resetAsserted = false) (hb : s.regs.busy = true)
    (hv : ¬ValidHigh (s.env.highAt np)) :
    { s.ran np nl tr l with todo := pulseOps ++ rest }.runToEnd (n + 8) =
      (s.ran (np + 1) nl (tr ++ s.env.pulseTrace np)
        (l.measured (s.env.readingAt (2 * np)) (s.env.readingAt (2 * np + 1)))).terminate
        (violationCode (s.env.highAt np)) (s.env.highAt np) := by
  rw [s.run_pulse_validate np nl tr l rest n hr hb, validate_fail _ hv, State.runToEnd_idle _ _ (by simp)]
  rfl

/-- One counted pulse that passes (R101, R103): the run goes on. -/
theorem State.run_pulse (s : State) (np nl : Nat) (tr : List PinStep) (l : Latches) (k : Nat)
    (rest : List MicroOp) (n : Nat) (hr : s.resetAsserted = false) (hb : s.regs.busy = true)
    (hv : ValidHigh (s.env.highAt np)) :
    { s.ran np nl tr l with todo := .setK k :: (pulseOps ++ rest) }.runToEnd (n + 9) =
      { s.ran (np + 1) nl (tr ++ s.env.pulseTrace np)
        (l.pulsed k (s.env.readingAt (2 * np)) (s.env.readingAt (2 * np + 1))) with todo := rest }.runToEnd n := by
  rw [s.run_setK np nl tr l k _ (n + 8) hr hb, s.run_pulse_only np nl tr _ rest n hr hb hv]
  rfl

/-- One counted pulse that violates (R103, R104): the command ends there. -/
theorem State.run_pulse_violation (s : State) (np nl : Nat) (tr : List PinStep) (l : Latches) (k : Nat)
    (rest : List MicroOp) (n : Nat) (hr : s.resetAsserted = false) (hb : s.regs.busy = true)
    (hv : ¬ValidHigh (s.env.highAt np)) :
    { s.ran np nl tr l with todo := .setK k :: (pulseOps ++ rest) }.runToEnd (n + 9) =
      (s.ran (np + 1) nl (tr ++ s.env.pulseTrace np)
        (l.pulsed k (s.env.readingAt (2 * np)) (s.env.readingAt (2 * np + 1)))).terminate
        (violationCode (s.env.highAt np)) (s.env.highAt np) := by
  rw [s.run_setK np nl tr l k _ (n + 8) hr hb, s.run_pulse_only_violation np nl tr _ rest n hr hb hv]
  rfl

/-- One data-line read (R14, R15). -/
theorem State.run_read (s : State) (np nl : Nat) (tr : List PinStep) (l : Latches) (rest : List MicroOp) (n : Nat)
    (hr : s.resetAsserted = false) (hb : s.regs.busy = true) :
    { s.ran np nl tr l with todo := .readData :: rest }.runToEnd (n + 1) =
      { s.ran np (nl + 1) (tr ++ [PinStep.readData (s.env.levelAt nl)]) { l with d := .of (s.env.levelAt nl) } with
        todo := rest }.runToEnd n := by
  have e : (s.env.after nl (2 * np)).afterLevel = s.env.after (nl + 1) (2 * np) := by
    rw [Env.afterLevel_eq, Env.after_after]; rfl
  have v : (s.env.after nl (2 * np)).levelAt 0 = s.env.levelAt nl := by simp
  have raw : { s.ran np nl tr l with todo := .readData :: rest }.runToEnd (n + 1) =
      State.runToEnd n
        { s.ran np nl tr l with
          latches := { l with d := .of ((s.env.after nl (2 * np)).levelAt 0) }
          env := (s.env.after nl (2 * np)).afterLevel
          obs := { s.obs with trace := s.obs.trace ++ tr ++ [.readData ((s.env.after nl (2 * np)).levelAt 0)] }
          todo := rest } := by
    simp [State.runToEnd, State.microStep, State.runOp, State.readData, State.record, State.ran, hr, hb]
  rw [raw, e, v]
  simp [State.ran]

end Sys2Proof.Machine
end

