-- ==== Sys2Proof/Laws/Sequence.lean ====
section
/-! SUPPORT. How the loops of the procedures run: the discarded and the checked pulses of a calibration (R121), the ready
poll (R128), the bits of a sample (R129). -/

namespace Sys2Proof.Machine

/-- The latches that a procedure never writes: the running command, its fraction, and whether the pins are configured. -/
structure Latches.Keeps (a b : Latches) : Prop where
  cmdL : b.cmdL = a.cmdL
  fracL : b.fracL = a.fracL
  conf : b.conf = a.conf

theorem Latches.Keeps.refl (a : Latches) : a.Keeps a := ⟨rfl, rfl, rfl⟩

@[simp] theorem flatMap_range_succ {α : Type} (f : Nat → List α) (n : Nat) :
    (List.range (n + 1)).flatMap f = (List.range n).flatMap f ++ f n := by
  simp [List.range_succ]

/-- `n` discarded pulses that all pass (R121). -/
theorem State.run_discards (s : State) (hr : s.resetAsserted = false) (hb : s.regs.busy = true) (k n m : Nat)
    (rest : List MicroOp) (hv : ∀ i < n, ValidHigh (s.env.highAt i)) :
    ∃ l, s.latches.Keeps l ∧
      { s with todo := loopOps discardOps n k ++ rest }.runToEnd (m + 9 * n) =
        { s.ran n 0 ((List.range n).flatMap s.env.pulseTrace) l with todo := rest }.runToEnd m := by
  induction n generalizing rest m with
  | zero => exact ⟨s.latches, .refl _, by simp [loopOps, State.ran, afterLast]⟩
  | succ n ih =>
    obtain ⟨l, hl, e⟩ := ih (m + 9) (.setK (k + n) :: (pulseOps ++ rest)) (fun i hi => hv i (by omega))
    refine ⟨l.pulsed (k + n) (s.env.readingAt (2 * n)) (s.env.readingAt (2 * n + 1)), ⟨hl.1, hl.2, hl.3⟩, ?_⟩
    rw [loopOps_succ, List.append_assoc, show discardOps (k + n) ++ rest = .setK (k + n) :: (pulseOps ++ rest) from rfl,
      show m + 9 * (n + 1) = m + 9 + 9 * n by omega, e, State.run_pulse _ _ _ _ _ _ _ _ hr hb (hv n (by omega)),
      flatMap_range_succ]

/-- A checked pulse up to its check (R121). -/
theorem State.run_checked_pulse (s : State) (np nl : Nat) (tr : List PinStep) (l : Latches) (j : Nat)
    (rest : List MicroOp) (m : Nat) (hr : s.resetAsserted = false) (hb : s.regs.busy = true)
    (hv : ValidHigh (s.env.highAt np)) :
    { s.ran np nl tr l with todo := checkOps j ++ rest }.runToEnd (m + 11) =
      (State.checkCal
        { s.ran (np + 1) (nl + 1) (tr ++ s.env.pulseTrace np ++ [PinStep.readData (s.env.levelAt nl)])
          { l.pulsed j (s.env.readingAt (2 * np)) (s.env.readingAt (2 * np + 1)) with d := .of (s.env.levelAt nl) } with
          todo := rest }).runToEnd m := by
  rw [show checkOps j ++ rest = .setK j :: (pulseOps ++ (.readData :: .checkCal :: rest)) by simp [checkOps],
    show m + 11 = m + 2 + 9 by omega, State.run_pulse _ _ _ _ _ _ _ _ hr hb hv, State.run_read _ _ _ _ _ _ _ hr hb]
  rw [State.run_op _ _ _ _ (by exact hr) (by exact hb)]
  rfl

/-- `n` checked pulses that all pass and whose reads are all 1 (R121). -/
theorem State.run_checks (s : State) (np nl : Nat) (tr : List PinStep) (l : Latches) (hl : s.latches.Keeps l)
    (hr : s.resetAsserted = false) (hb : s.regs.busy = true) (j n m : Nat) (rest : List MicroOp)
    (hv : ∀ i < n, ValidHigh (s.env.highAt (np + i))) (hd : ∀ i < n, s.env.levelAt (nl + i) = true) :
    ∃ l', s.latches.Keeps l' ∧
      { s.ran np nl tr l with todo := loopOps checkOps n j ++ rest }.runToEnd (m + 11 * n) =
        { s.ran (np + n) (nl + n) (tr ++ (List.range n).flatMap fun i =>
            s.env.pulseTrace (np + i) ++ [PinStep.readData (s.env.levelAt (nl + i))]) l' with
          todo := rest }.runToEnd m := by
  induction n generalizing rest m with
  | zero => exact ⟨l, hl, by simp [loopOps]⟩
  | succ n ih =>
    obtain ⟨l', hl', e⟩ := ih (m + 11) (checkOps (j + n) ++ rest) (fun i hi => hv i (by omega))
      (fun i hi => hd i (by omega))
    refine ⟨{ l'.pulsed (j + n) (s.env.readingAt (2 * (np + n))) (s.env.readingAt (2 * (np + n) + 1)) with
      d := .of (s.env.levelAt (nl + n)) }, ⟨hl'.1, hl'.2, hl'.3⟩, ?_⟩
    rw [loopOps_succ, List.append_assoc, show m + 11 * (n + 1) = m + 11 + 11 * n by omega, e,
      State.run_checked_pulse _ _ _ _ _ _ _ _ hr hb (hv n (by omega)), flatMap_range_succ]
    simp [State.checkCal, State.ran, hd n (by omega), Nat.add_assoc]

/-- `n` bits of a sample whose pulses all pass (R129). -/
theorem State.run_bits (s : State) (hr : s.resetAsserted = false) (hb : s.regs.busy = true) (k n m : Nat)
    (rest : List MicroOp) (hv : ∀ i < n, ValidHigh (s.env.highAt i)) (ha : s.latches.acc.value = 0) :
    ∃ l, s.latches.Keeps l ∧ l.acc.value = s.env.patternAt 0 n ∧
      { s with todo := loopOps bitOps n k ++ rest }.runToEnd (m + 11 * n) =
        { s.ran n n ((List.range n).flatMap (s.env.bitStep 0)) l with todo := rest }.runToEnd m := by
  induction n generalizing rest m with
  | zero => exact ⟨s.latches, .refl _, by simp [Env.patternAt, ha], by simp [loopOps, State.ran, afterLast]⟩
  | succ n ih =>
    obtain ⟨l, hl, hp, e⟩ := ih (m + 11) (bitOps (k + n) ++ rest) (fun i hi => hv i (by omega))
    refine ⟨{ l.pulsed (k + n) (s.env.readingAt (2 * n)) (s.env.readingAt (2 * n + 1)) with
      d := .of (s.env.levelAt n), acc := .of (shiftIn l.acc.value (s.env.levelAt n)) }, ⟨hl.1, hl.2, hl.3⟩, ?_, ?_⟩
    · simp [Env.patternAt, hp]
    · rw [loopOps_succ, List.append_assoc, show m + 11 * (n + 1) = m + 11 + 11 * n by omega, e,
        show bitOps (k + n) ++ rest = .setK (k + n) :: (pulseOps ++ (.readData :: .shiftAcc :: rest)) by simp [bitOps],
        show m + 11 = m + 2 + 9 by omega, State.run_pulse _ _ _ _ _ _ _ _ hr hb (hv n (by omega)),
        State.run_read _ _ _ _ _ _ _ hr hb, State.run_op _ _ _ _ (by exact hr) (by exact hb), flatMap_range_succ]
      simp only [State.runOp, Env.bitStep, Nat.zero_add, List.append_assoc]
      rfl

/-- The sleep that comes before the attempt `q` of a ready poll, counted from 0 (R128). -/
def sleepBefore (q : Nat) : List PinStep := if q = 0 then [] else [.sleep Config.pollIntervalNs]

/-- `s` after `q` ready polls that all read 1, the next one due (R128). -/
def State.waited (s : State) (q : Nat) (l : Latches) : State :=
  { s with
    regs := { s.regs with polls := afterLast s.regs.polls (fun i => BitVec.ofNat 64 (i + 1)) q }
    latches := l
    env := s.env.after q 0
    obs := { s.obs with trace := s.obs.trace ++ s.env.pollTrace q ++ sleepBefore q } }

/-- `s` after `q` ready polls, the last one just made (R128). -/
def State.polled (s : State) (q : Nat) (l : Latches) : State :=
  { s with
    regs := { s.regs with polls := BitVec.ofNat 64 q }
    latches := l
    env := s.env.after q 0
    obs := { s.obs with trace := s.obs.trace ++ s.env.pollTrace q } }

theorem Env.pollTrace_succ (e : Env) (q : Nat) : e.pollTrace (q + 1) = e.pollTrace q ++ e.pollStep q := by
  simp [Env.pollTrace]

/-- One attempt of the ready poll up to its tests (R128). -/
theorem State.run_attempt (s : State) (q : Nat) (l : Latches) (rest : List MicroOp) (m : Nat)
    (hr : s.resetAsserted = false) (hb : s.regs.busy = true) (hp : l.p.value = q) :
    { s.waited q l with todo := pollOps ++ rest }.runToEnd (m + 4) =
      (State.pollTest { s.polled (q + 1) { l with d := .of (s.env.levelAt q), p := .of (q + 1) } with
        todo := rest }).runToEnd m := by
  have e : (s.env.after q 0).afterLevel = s.env.after (q + 1) 0 := by
    rw [Env.afterLevel_eq, Env.after_after]
  have v : (s.env.after q 0).levelAt 0 = s.env.levelAt q := by simp
  simp only [pollOps, List.cons_append, List.nil_append]
  simp [State.runToEnd, State.microStep, State.runOp, State.readData, State.record, State.waited, State.polled, hr, hb,
    hp, e, Env.pollTrace_succ, Env.pollStep, sleepBefore]

/-- Polls that read 1, but for the last one there is (R128). -/
theorem State.run_waits (s : State) (q m : Nat) (rest : List MicroOp) (hr : s.resetAsserted = false)
    (hb : s.regs.busy = true) (hp : s.latches.p.value = 0) (hq : q < Config.pollMax)
    (hd : ∀ i < q, s.env.levelAt i = true) :
    ∃ l, s.latches.Keeps l ∧ l.p.value = q ∧
      { s with todo := pollOps ++ rest }.runToEnd (m + 5 * q) =
        { s.waited q l with todo := pollOps ++ rest }.runToEnd m := by
  induction q generalizing m with
  | zero =>
    exact ⟨s.latches, .refl _, hp, by simp [State.waited, afterLast, Env.pollTrace, sleepBefore]⟩
  | succ q ih =>
    obtain ⟨l, hl, hpl, e⟩ := ih (m + 5) (by omega) (fun i hi => hd i (by omega))
    refine ⟨{ l with d := .of (s.env.levelAt q), p := .of (q + 1) }, ⟨hl.1, hl.2, hl.3⟩, rfl, ?_⟩
    rw [show m + 5 * (q + 1) = m + 5 + 5 * q by omega, e, show m + 5 = m + 1 + 4 by omega,
      State.run_attempt _ _ _ _ _ hr hb hpl]
    have hne : q + 1 ≠ Config.pollMax := by omega
    simp [State.pollTest, hd q (by omega), hne, State.runToEnd, State.microStep, State.runOp, State.sleep,
      State.record, State.polled, State.waited, hr, hb, afterLast, sleepBefore]

/-- The poll that reads 0 ends the ready poll (R127, R128). -/
theorem State.run_ready (s : State) (q m : Nat) (rest : List MicroOp) (hr : s.resetAsserted = false)
    (hb : s.regs.busy = true) (hp : s.latches.p.value = 0) (hq : q < Config.pollMax) (hd : s.env.ReadyAfter q) :
    ∃ l, s.latches.Keeps l ∧
      { s with todo := pollOps ++ rest }.runToEnd (m + 5 * q + 4) =
        { s.polled (q + 1) l with todo := rest }.runToEnd m := by
  obtain ⟨l, hl, hpl, e⟩ := s.run_waits q (m + 4) rest hr hb hp hq hd.1
  refine ⟨{ l with d := .of (s.env.levelAt q), p := .of (q + 1) }, ⟨hl.1, hl.2, hl.3⟩, ?_⟩
  rw [show m + 5 * q + 4 = m + 4 + 5 * q by omega, e, State.run_attempt _ _ _ _ _ hr hb hpl]
  simp [State.pollTest, hd.2, State.polled]

/-- The last poll reads 1: NOT_READY (R128). -/
theorem State.run_never_ready (s : State) (m : Nat) (rest : List MicroOp) (hr : s.resetAsserted = false)
    (hb : s.regs.busy = true) (hp : s.latches.p.value = 0) (hd : ∀ i < Config.pollMax, s.env.levelAt i = true) :
    ∃ l, s.latches.Keeps l ∧
      { s with todo := pollOps ++ rest }.runToEnd (m + 854) =
        (s.polled Config.pollMax l).terminate .notReady (BitVec.ofNat 64 Config.pollMax) := by
  obtain ⟨l, hl, hpl, e⟩ := s.run_waits 170 (m + 4) rest hr hb hp (by decide)
    (fun i hi => hd i (by simp only [Config.pollMax]; omega))
  refine ⟨{ l with d := .of (s.env.levelAt 170), p := .of 171 }, ⟨hl.1, hl.2, hl.3⟩, ?_⟩
  rw [show m + 854 = m + 4 + 5 * 170 by omega, e, State.run_attempt _ _ _ _ _ hr hb hpl]
  have h170 := hd 170 (by decide)
  simp only [State.pollTest, h170, State.polled, Latch.of_value, if_true, Config.pollMax, State.raise_eq]
  rw [State.runToEnd_idle _ _ (by simp)]
  rfl

end Sys2Proof.Machine
end

