-- ==== Sys2Proof/Laws/Accept.lean ====
section
/-! SUPPORT. What a write to CMD can do (R183), and how a command presented alone comes to run. -/

namespace Sys2Proof.Machine

/-- A command's word decodes to it (R83, R84). -/
theorem decodeCommand_commandWord (i : Instr) (hi : i.IsCommand) : decodeCommand (commandWord i) = some i := by
  rcases hi with rfl | rfl | rfl | rfl | rfl | rfl | rfl | rfl <;> decide

/-- Every command is its word, presented alone. -/
theorem exec_command (i : Instr) (hi : i.IsCommand) (s : State) :
    exec i s = .next (s.runCommand (commandWord i)) := by
  rcases hi with rfl | rfl | rfl | rfl | rfl | rfl | rfl | rfl <;> rfl

/-- A write to CMD is its acceptance (R181), observed (R16). -/
theorem exec_wr_cmd (s : State) (w : Word) (hr : s.resetAsserted = false) :
    exec (.wr 0 w) s = .next (s.accept w).observe := by
  simp [exec, execWr, State.hostWrite, State.regWrite, hr]

/-- The outcomes of `Accept(w)` (R183), in the order of its checks. -/
theorem State.accept_cases (s : State) (w : Word) :
    (s.regs.busy = true ∧ s.accept w = { s with regs := { s.regs with ovr := true } }) ∨
    (s.regs.busy = false ∧ decodeCommand w = none ∧ s.accept w = s.reject .illegalCommand w) ∨
    ∃ i, s.regs.busy = false ∧ decodeCommand w = some i ∧
      ((s.regs.phase = .released ∧ s.accept w = s.reject .released w) ∨
       (s.regs.phase ≠ .released ∧ i = .calUnit ∧ fracOk s.regs.fraction = false ∧
          s.accept w = s.reject .invalidFraction s.regs.fraction) ∨
       (s.regs.phase ≠ .released ∧ i = .measure ∧ fpIsZero s.regs.unit = true ∧
          s.accept w = s.reject .notCalibrated 0) ∨
       (s.regs.phase ≠ .released ∧ s.Meets i ∧ s.accept w = s.start i)) := by
  unfold State.accept
  cases hb : s.regs.busy
  · right
    cases hd : decodeCommand w with
    | none => exact .inl ⟨rfl, rfl, rfl⟩
    | some i =>
      refine .inr ⟨i, rfl, rfl, ?_⟩
      by_cases hp : s.regs.phase = .released
      · exact .inl ⟨hp, by simp [hp]⟩
      · by_cases hf : i = .calUnit ∧ fracOk s.regs.fraction = false
        · exact .inr (.inl ⟨hp, hf.1, hf.2, by simp [hp, hf]⟩)
        · by_cases hu : i = .measure ∧ fpIsZero s.regs.unit = true
          · exact .inr (.inr (.inl ⟨hp, hu.1, hu.2, by simp [hp, hu]⟩))
          · refine .inr (.inr (.inr ⟨hp, ⟨fun h => ?_, fun h => ?_⟩, by simp [hp, hf, hu]⟩))
            · cases hx : fracOk s.regs.fraction
              · exact absurd ⟨h, hx⟩ hf
              · rfl
            · cases hx : fpIsZero s.regs.unit
              · rfl
              · exact absurd ⟨h, hx⟩ hu
  · exact .inl ⟨rfl, rfl⟩

/-- A command that passes the checks of R183 is started. -/
theorem State.accept_start (s : State) (i : Instr) (ha : s.Accepting) (hi : i.IsCommand) (hm : s.Meets i) :
    s.accept (commandWord i) = s.start i := by
  have hf : ¬(i = .calUnit ∧ fracOk s.regs.fraction = false) := fun h => by simp [hm.1 h.1] at h
  have hu : ¬(i = .measure ∧ fpIsZero s.regs.unit = true) := fun h => by simp [hm.2 h.1] at h
  simp [State.accept, ha.2.1, decodeCommand_commandWord i hi, ha.2.2, hf, hu]

/-- A command presented alone that passes the checks of R183 runs from its start. -/
theorem State.runCommand_start (s : State) (i : Instr) (ha : s.Accepting) (hi : i.IsCommand) (hm : s.Meets i) :
    s.runCommand (commandWord i) = (s.start i).observe.runToEnd commandBound := by
  simp [State.runCommand, State.hostWrite, State.regWrite, ha.1, ha.2.1, s.accept_start i ha hi hm]

/-- A command with no precondition. -/
theorem State.meets_of_ne (s : State) (i : Instr) (h1 : i ≠ .calUnit) (h2 : i ≠ .measure) : s.Meets i :=
  ⟨fun h => absurd h h1, fun h => absurd h h2⟩

/-- A run that ends is the command's result. -/
theorem exec_of_run (s t : State) (i : Instr) (ha : s.Accepting) (hi : i.IsCommand) (hm : s.Meets i) (n : Nat)
    (h : (s.start i).observe.runToEnd n = t) (ht : t.regs.busy = false) (hn : n ≤ commandBound) : exec i s = .next t := by
  rw [exec_command i hi, s.runCommand_start i ha hi hm, State.runToEnd_of_done _ _ _ _ h ht hn]

end Sys2Proof.Machine
end

