-- ==== Sys2Proof/Laws/Procedures.lean ====
section
/-! SUPPORT. How the procedures run from their first micro-step: the calibration sequence (R121 to R125) and the
acquisition (R128 to R131). -/

namespace Sys2Proof.Machine

@[simp] theorem afterLast_zero {α : Type} (d : α) (f : Nat → α) : afterLast d f 0 = d := rfl

@[simp] theorem afterLast_succ {α : Type} (d : α) (f : Nat → α) (n : Nat) : afterLast d f (n + 1) = f n := rfl

/-- `s` in a phase. -/
def State.inPhase (s : State) (p : Phase) : State := { s with regs := { s.regs with phase := p } }

/-- A sequence enters its phase, with no pulse and no read made yet. -/
theorem State.run_setPhase (s : State) (p : Phase) (rest : List MicroOp) (n : Nat) (hr : s.resetAsserted = false)
    (hb : s.regs.busy = true) :
    { s with todo := .setPhase p :: rest }.runToEnd (n + 1) =
      { (s.inPhase p).ran 0 0 [] s.latches with todo := rest }.runToEnd n := by
  rw [State.run_op _ _ _ _ hr hb, show s.latches = (s.inPhase p).latches from rfl, State.ran_zero]
  rfl

/-- What a violation reports (R103, R212, R222). -/
theorem violationCode_spec (h : Word) :
    (violationCode h).isViolation = true ∧ violationCode h ≠ .ok ∧ violationCode h ≠ .calibrationFailed ∧
      failureEvents (violationCode h) h = [violationEvent h] := by
  unfold violationCode violationEvent
  split <;> simp [ResultCode.isViolation, failureEvents]

/-- The trace of a calibration's discarded pulses holds no read (R121). -/
theorem Env.calTrace_discards (e : Env) (n : Nat) (hn : n ≤ 22) :
    e.calTrace n = (List.range n).flatMap e.pulseTrace := by
  induction n with
  | zero => rfl
  | succ n ih =>
    have h : ¬22 ≤ n := by omega
    have ih' := ih (by omega)
    unfold Env.calTrace at ih' ⊢
    simp [ih', Env.calPulseTrace, Config.nCalDiscard, h]

/-- The trace of a calibration past its discarded pulses (R121, R122). -/
theorem Env.calTrace_checks (e : Env) (j : Nat) :
    e.calTrace (22 + j) = (List.range 22).flatMap e.pulseTrace ++ (List.range j).flatMap fun i =>
      e.pulseTrace (22 + i) ++ [PinStep.readData (e.levelAt (0 + i))] := by
  induction j with
  | zero => simp [e.calTrace_discards 22 (by omega)]
  | succ j ih =>
    unfold Env.calTrace at ih ⊢
    rw [← Nat.add_assoc, flatMap_range_succ, ih, flatMap_range_succ, List.append_assoc]
    simp [Env.calPulseTrace, Config.nCalDiscard]

/-- The discarded pulses of a calibration, all passing. -/
theorem State.run_cal_discards (s : State) (hr : s.resetAsserted = false) (hb : s.regs.busy = true) (n m : Nat)
    (hn : n ≤ 22) (hv : ∀ i < n, ValidHigh (s.env.highAt i)) :
    ∃ l, s.latches.Keeps l ∧
      { s with todo := calSeq }.runToEnd (m + 9 * n + 1) =
        { (s.inPhase .calibrating).ran n 0 (s.env.calTrace n) l with
          todo := loopOps discardOps (22 - n) (1 + n) ++ (loopOps checkOps 4 0 ++ [MicroOp.complete]) }.runToEnd m := by
  let b := s.inPhase .calibrating
  obtain ⟨l, hl, e⟩ := b.run_discards hr hb 1 n m
    (loopOps discardOps (22 - n) (1 + n) ++ (loopOps checkOps 4 0 ++ [MicroOp.complete])) hv
  refine ⟨l, hl, ?_⟩
  have hs : calSeq = .setPhase .calibrating :: (loopOps discardOps n 1 ++
      (loopOps discardOps (22 - n) (1 + n) ++ (loopOps checkOps 4 0 ++ [MicroOp.complete]))) := by
    rw [← List.append_assoc, ← loopOps_add, show n + (22 - n) = 22 by omega]
    rfl
  rw [hs, State.run_setPhase _ _ _ _ hr hb, show s.latches = b.latches from rfl, State.ran_zero, e,
    s.env.calTrace_discards n hn]
  rfl

/-- The checked pulses of a calibration, the first `j` of them passing and reading 1. -/
theorem State.run_cal_checks (s : State) (hr : s.resetAsserted = false) (hb : s.regs.busy = true) (j m : Nat)
    (hj : j ≤ 4) (hv : ∀ i < 22 + j, ValidHigh (s.env.highAt i)) (hd : ∀ i < j, s.env.levelAt i = true) :
    ∃ l, s.latches.Keeps l ∧
      { s with todo := calSeq }.runToEnd (m + 11 * j + 199) =
        { (s.inPhase .calibrating).ran (22 + j) j (s.env.calTrace (22 + j)) l with
          todo := loopOps checkOps (4 - j) j ++ [MicroOp.complete] }.runToEnd m := by
  obtain ⟨l, hl, e⟩ := s.run_cal_discards hr hb 22 (m + 11 * j) (by omega) (fun i hi => hv i (by omega))
  obtain ⟨l', hl', e'⟩ := (s.inPhase .calibrating).run_checks 22 0 (s.env.calTrace 22) l hl hr hb 0 j m
    (loopOps checkOps (4 - j) j ++ [MicroOp.complete]) (fun i hi => hv (22 + i) (by omega))
    (fun i hi => by simpa [State.inPhase] using hd i hi)
  refine ⟨l', hl', ?_⟩
  have hs : loopOps checkOps 4 0 ++ [MicroOp.complete] =
      loopOps checkOps j 0 ++ (loopOps checkOps (4 - j) j ++ [MicroOp.complete]) := by
    rw [← List.append_assoc]
    conv_rhs => rw [show j = 0 + j by omega, ← Nat.zero_add (4 - (0 + j))]
    have := loopOps_add checkOps j (4 - j) 0
    simp only [Nat.zero_add] at this ⊢
    rw [← this, show j + (4 - j) = 4 by omega]
  rw [show m + 11 * j + 199 = m + 11 * j + 9 * 22 + 1 by omega, e]
  simp only [Nat.sub_self, loopOps, List.nil_append]
  have hs' : checkOps 0 ++ (checkOps (0 + 1) ++ (checkOps (0 + 1 + 1) ++ (checkOps (0 + 1 + 1 + 1) ++ []))) ++
      [MicroOp.complete] = loopOps checkOps j 0 ++ (loopOps checkOps (4 - j) j ++ [MicroOp.complete]) := hs
  rw [hs', e', s.env.calTrace_checks j, s.env.calTrace_discards 22 (by omega)]
  simp [State.inPhase]

/-- A calibration that passes (R121, R123). -/
theorem State.run_cal_pass (s : State) (hr : s.resetAsserted = false) (hb : s.regs.busy = true)
    (hv : ∀ i < 26, ValidHigh (s.env.highAt i)) (hd : ∀ i < 4, s.env.levelAt i = true) :
    ∃ l, s.latches.Keeps l ∧
      { s with todo := calSeq }.runToEnd 244 =
        ((s.inPhase .calibrating).ran 26 4 (s.env.calTrace 26) l).terminate .ok 0 := by
  obtain ⟨l, hl, e⟩ := s.run_cal_checks hr hb 4 1 (by omega) hv hd
  refine ⟨l, hl, ?_⟩
  rw [show 244 = 1 + 11 * 4 + 199 from rfl, e, Nat.sub_self, loopOps, List.nil_append,
    State.run_op _ _ _ _ (by exact hr) (by exact hb)]
  rfl

/-- A calibration whose check `j` reads 0 (R121, R124). -/
theorem State.run_cal_fail (s : State) (hr : s.resetAsserted = false) (hb : s.regs.busy = true) (j : Nat) (hj : j < 4)
    (hv : ∀ i < 23 + j, ValidHigh (s.env.highAt i)) (hd : ∀ i < j, s.env.levelAt i = true)
    (h0 : s.env.levelAt j = false) :
    ∃ l, s.latches.Keeps l ∧
      { s with todo := calSeq }.runToEnd 244 =
        ((s.inPhase .calibrating).ran (23 + j) (j + 1) (s.env.calTrace (23 + j)) l).terminate .calibrationFailed
          (BitVec.ofNat 64 j) := by
  obtain ⟨l, hl, e⟩ := s.run_cal_checks hr hb j (45 - 11 * j) (by omega) (fun i hi => hv i (by omega)) hd
  refine ⟨{ l.pulsed j (s.env.readingAt (2 * (22 + j))) (s.env.readingAt (2 * (22 + j) + 1)) with
    d := .of (s.env.levelAt j) }, ⟨hl.1, hl.2, hl.3⟩, ?_⟩
  rw [show 244 = 45 - 11 * j + 11 * j + 199 by omega, e, show 4 - j = 3 - j + 1 by omega, loopOps, List.append_assoc,
    show 45 - 11 * j = 34 - 11 * j + 11 by omega,
    State.run_checked_pulse (s.inPhase .calibrating) (22 + j) j _ l j _ _ hr hb (hv (22 + j) (by omega))]
  have ht : s.env.calTrace (23 + j) = s.env.calTrace (22 + j) ++
      (s.env.pulseTrace (22 + j) ++ [PinStep.readData (s.env.levelAt j)]) := by
    rw [show 23 + j = 22 + j + 1 by omega]
    unfold Env.calTrace
    rw [flatMap_range_succ]
    simp [Env.calPulseTrace, Config.nCalDiscard]
  have hp : (s.inPhase .calibrating).env = s.env := rfl
  rw [ht, hp]
  simp only [State.checkCal, State.ran, hp, h0, Latch.of_value, State.raise_eq, Bool.false_eq_true, if_false]
  rw [State.runToEnd_idle _ _ (by simp)]
  simp [State.terminate, State.emit, Latches.pulsed, Latches.measured, show 22 + j + 1 = 23 + j by omega]

/-- A calibration whose pulse `n` violates (R104, R125). -/
theorem State.run_cal_violation (s : State) (hr : s.resetAsserted = false) (hb : s.regs.busy = true) (n : Nat)
    (hn : n < 26) (hv : ∀ i < n, ValidHigh (s.env.highAt i)) (hx : ¬ValidHigh (s.env.highAt n))
    (hd : ∀ i < n - 22, s.env.levelAt i = true) :
    ∃ l, s.latches.Keeps l ∧
      { s with todo := calSeq }.runToEnd 244 =
        ((s.inPhase .calibrating).ran (n + 1) (n - 22) (s.env.calTrace n ++ s.env.pulseTrace n) l).terminate
          (violationCode (s.env.highAt n)) (s.env.highAt n) := by
  by_cases h : n < 22
  · obtain ⟨l, hl, e⟩ := s.run_cal_discards hr hb n (243 - 9 * n) (by omega) hv
    refine ⟨l.pulsed (1 + n) (s.env.readingAt (2 * n)) (s.env.readingAt (2 * n + 1)), ⟨hl.1, hl.2, hl.3⟩, ?_⟩
    rw [show 244 = 243 - 9 * n + 9 * n + 1 by omega, e, show 22 - n = 21 - n + 1 by omega, loopOps, List.append_assoc,
      show 243 - 9 * n = 234 - 9 * n + 9 by omega, show n - 22 = 0 by omega]
    exact State.run_pulse_violation (s.inPhase .calibrating) n 0 _ l (1 + n) _ _ hr hb hx
  · obtain ⟨j, rfl⟩ := Nat.exists_eq_add_of_le (Nat.not_lt.mp h)
    have hj : 22 + j - 22 = j := by omega
    rw [hj] at hd ⊢
    obtain ⟨l, hl, e⟩ := s.run_cal_checks hr hb j (45 - 11 * j) (by omega) hv hd
    refine ⟨l.pulsed j (s.env.readingAt (2 * (22 + j))) (s.env.readingAt (2 * (22 + j) + 1)), ⟨hl.1, hl.2, hl.3⟩, ?_⟩
    rw [show 244 = 45 - 11 * j + 11 * j + 199 by omega, e, show 4 - j = 3 - j + 1 by omega, loopOps,
      show 45 - 11 * j = 36 - 11 * j + 9 by omega, checkOps, List.append_assoc, List.cons_append, List.append_assoc]
    exact State.run_pulse_violation (s.inPhase .calibrating) (22 + j) j _ l j _ _ hr hb hx

/-- `s` after a ready poll of `q + 1` attempts, about to read a sample. -/
def State.atRead (s : State) (q : Nat) (l : Latches) : State :=
  ((s.inPhase .polling).polled (q + 1) { l with acc := .of 0 }).inPhase .reading

/-- The ready poll of an acquisition that succeeds at attempt `q + 1`, up to the first bit (R128, R129). -/
theorem State.run_acquire_poll (s : State) (hr : s.resetAsserted = false) (hb : s.regs.busy = true) (q m : Nat)
    (rest : List MicroOp) (hq : q < 171) (hd : s.env.ReadyAfter q) :
    ∃ l, s.latches.Keeps l ∧
      { s with todo := acquireThen rest }.runToEnd (m + 5 * q + 8) =
        { s.atRead q l with todo := loopOps bitOps 20 1 ++ (MicroOp.writeRaw :: MicroOp.emitSample :: rest) }.runToEnd m := by
  let b : State := { s.inPhase .polling with latches := { s.latches with p := .of 0 } }
  obtain ⟨l, hl, e⟩ := b.run_ready q (m + 2) (readSample ++ (MicroOp.writeRaw :: MicroOp.emitSample :: rest)) hr hb rfl hq hd
  refine ⟨l, ⟨hl.1, hl.2, hl.3⟩, ?_⟩
  have hs : acquireThen rest = .setPhase .polling :: .clearP ::
      (pollOps ++ (readSample ++ (MicroOp.writeRaw :: MicroOp.emitSample :: rest))) := rfl
  rw [hs, show m + 5 * q + 8 = m + 2 + 5 * q + 4 + 1 + 1 by omega, State.run_op _ _ _ _ hr hb]
  have h1 : ({ s with todo := .clearP :: (pollOps ++ (readSample ++ (MicroOp.writeRaw :: MicroOp.emitSample :: rest))) } : State).runOp
      (.setPhase .polling) =
      { s.inPhase .polling with todo := .clearP :: (pollOps ++ (readSample ++ (MicroOp.writeRaw :: MicroOp.emitSample :: rest))) } := rfl
  rw [h1, State.run_op _ _ _ _ (by exact hr) (by exact hb)]
  have h2 : ({ s.inPhase .polling with
      todo := pollOps ++ (readSample ++ (MicroOp.writeRaw :: MicroOp.emitSample :: rest)) } : State).runOp .clearP =
      { b with todo := pollOps ++ (readSample ++ (MicroOp.writeRaw :: MicroOp.emitSample :: rest)) } := rfl
  rw [h2, e, readSample, List.cons_append, List.cons_append, State.run_op _ _ _ _ (by exact hr) (by exact hb)]
  have h3 : ({ b.polled (q + 1) l with
      todo := .clearAcc :: (loopOps bitOps Config.nBits 1 ++ (MicroOp.writeRaw :: MicroOp.emitSample :: rest)) } : State).runOp
      (.setPhase .reading) =
      { (b.polled (q + 1) l).inPhase .reading with
        todo := .clearAcc :: (loopOps bitOps Config.nBits 1 ++ (MicroOp.writeRaw :: MicroOp.emitSample :: rest)) } := rfl
  rw [h3, State.run_op _ _ _ _ (by exact hr) (by exact hb)]
  rfl

/-- The levels and readings of an acquisition's sample read, counted from its start. -/
theorem Env.patternAt_after (e : Env) (q n first : Nat) :
    (e.after q 0).patternAt first n = e.patternAt (q + first) n := by
  induction n with
  | zero => rfl
  | succ n ih => simp [Env.patternAt, ih, Nat.add_assoc]

theorem Env.highAt_after_levels (e : Env) (q i : Nat) : (e.after q 0).highAt i = e.highAt i := by
  simp [Env.highAt]

theorem Env.pulseTrace_after_levels (e : Env) (q i : Nat) : (e.after q 0).pulseTrace i = e.pulseTrace i := by
  simp [Env.pulseTrace]

theorem Env.bitTrace_after_levels (e : Env) (q n : Nat) :
    (List.range n).flatMap ((e.after q 0).bitStep 0) = e.bitTrace q n := by
  unfold Env.bitTrace
  congr 1
  funext i
  simp [Env.bitStep, Env.pulseTrace]

/-- The end of an acquisition: RAW and RAWBITS, then the SAMPLE event (R131). -/
theorem State.run_publish (s : State) (hr : s.resetAsserted = false) (hb : s.regs.busy = true) (rest : List MicroOp)
    (m : Nat) :
    { s with todo := MicroOp.writeRaw :: MicroOp.emitSample :: rest }.runToEnd (m + 2) =
      { s with
        regs := { s.regs with
          raw := s.latches.acc.value.signExtend 64, rawbits := s.latches.acc.value.setWidth 64 }
        obs := { s.obs with
          events := s.obs.events ++ [Event.sample s.latches.acc.value (decode20 s.latches.acc.value)] }
        todo := rest }.runToEnd m := by
  simp [State.runToEnd, State.microStep, State.runOp, State.emit, hr, hb]

/-- An acquisition that completes, up to the rest of its command (R131). -/
theorem State.run_acquire (s : State) (hr : s.resetAsserted = false) (hb : s.regs.busy = true) (q m : Nat)
    (rest : List MicroOp) (hq : q < 171) (hd : s.env.ReadyAfter q) (hv : ∀ i < 20, ValidHigh (s.env.highAt i)) :
    ∃ l, s.latches.Keeps l ∧ l.acc.value = s.env.patternAt (q + 1) 20 ∧
      { s with todo := acquireThen rest }.runToEnd (m + 5 * q + 230) =
        { s with
          regs := { s.regs with
            phase := .reading
            raw := (s.env.patternAt (q + 1) 20).signExtend 64
            rawbits := (s.env.patternAt (q + 1) 20).setWidth 64
            pulses := s.regs.pulses + 20
            polls := BitVec.ofNat 64 (q + 1)
            hightime := s.env.highAt 19 }
          latches := l
          sclk := .low
          env := s.env.after (q + 21) 40
          obs := { s.obs with
            trace := s.obs.trace ++ (s.env.pollTrace (q + 1) ++ s.env.bitTrace (q + 1) 20)
            events := s.obs.events ++ [Event.sample (s.env.patternAt (q + 1) 20) (decode20 (s.env.patternAt (q + 1) 20))] }
          todo := rest }.runToEnd m := by
  obtain ⟨l, hl, e⟩ := s.run_acquire_poll hr hb q (m + 222) rest hq hd
  have he : (s.atRead q l).env = s.env.after (q + 1) 0 := rfl
  obtain ⟨l', hl', ha, e'⟩ := (s.atRead q l).run_bits hr hb 1 20 (m + 2) (MicroOp.writeRaw :: MicroOp.emitSample :: rest)
    (fun i hi => by rw [he, Env.highAt_after_levels]; exact hv i hi) rfl
  rw [he, Env.patternAt_after, Nat.add_zero] at ha
  refine ⟨l', ⟨hl'.1.trans hl.1, hl'.2.trans hl.2, hl'.3.trans hl.3⟩, ha, ?_⟩
  rw [show m + 5 * q + 230 = m + 222 + 5 * q + 8 by omega, e, show m + 222 = m + 2 + 11 * 20 by omega, e',
    State.run_publish _ (by exact hr) (by exact hb), he, Env.bitTrace_after_levels]
  have hv19 : (s.env.after (q + 1) 0).highAt 19 = s.env.highAt 19 := Env.highAt_after_levels _ _ _
  have ha2 : (s.env.after (q + 1) 0).after 20 (2 * 20) = s.env.after (q + 21) 40 := by
    rw [Env.after_after]
  simp only [State.ran, State.atRead, State.polled, State.inPhase, ha, ha2, hv19, afterLast, List.append_assoc]
  rfl

/-- An acquisition whose pulse `n` violates (R104, R129, R213). -/
theorem State.run_acquire_violation (s : State) (hr : s.resetAsserted = false) (hb : s.regs.busy = true) (q n m : Nat)
    (rest : List MicroOp) (hq : q < 171) (hd : s.env.ReadyAfter q) (hn : n < 20)
    (hv : ∀ i < n, ValidHigh (s.env.highAt i)) (hx : ¬ValidHigh (s.env.highAt n)) :
    ∃ l, s.latches.Keeps l ∧
      { s with todo := acquireThen rest }.runToEnd (m + 5 * q + 230) =
        { s with
          regs := { s.regs with
            phase := .reading
            pulses := s.regs.pulses + BitVec.ofNat 64 (n + 1)
            polls := BitVec.ofNat 64 (q + 1)
            hightime := s.env.highAt n }
          latches := l
          sclk := .low
          env := s.env.after (q + 1 + n) (2 * (n + 1))
          obs := { s.obs with
            trace := s.obs.trace ++ (s.env.pollTrace (q + 1) ++ (s.env.bitTrace (q + 1) n ++ s.env.pulseTrace n)) }
          }.terminate (violationCode (s.env.highAt n)) (s.env.highAt n) := by
  obtain ⟨l, hl, e⟩ := s.run_acquire_poll hr hb q (m + 222) rest hq hd
  have he : (s.atRead q l).env = s.env.after (q + 1) 0 := rfl
  have hs : loopOps bitOps 20 1 ++ (MicroOp.writeRaw :: MicroOp.emitSample :: rest) =
      loopOps bitOps n 1 ++ (loopOps bitOps (20 - n) (1 + n) ++ (MicroOp.writeRaw :: MicroOp.emitSample :: rest)) := by
    rw [← List.append_assoc, ← loopOps_add, show n + (20 - n) = 20 by omega]
  obtain ⟨l', hl', -, e'⟩ := (s.atRead q l).run_bits hr hb 1 n (m + 222 - 11 * n)
    (loopOps bitOps (20 - n) (1 + n) ++ (MicroOp.writeRaw :: MicroOp.emitSample :: rest))
    (fun i hi => by rw [he, Env.highAt_after_levels]; exact hv i hi) rfl
  refine ⟨l'.pulsed (1 + n) (s.env.readingAt (2 * n)) (s.env.readingAt (2 * n + 1)),
    ⟨hl'.1.trans hl.1, hl'.2.trans hl.2, hl'.3.trans hl.3⟩, ?_⟩
  rw [show m + 5 * q + 230 = m + 222 + 5 * q + 8 by omega, e, hs,
    show m + 222 = m + 222 - 11 * n + 11 * n by omega, e', show 20 - n = 19 - n + 1 by omega, loopOps,
    show m + 222 - 11 * n = m + 213 - 11 * n + 9 by omega, bitOps, List.append_assoc, List.cons_append,
    List.append_assoc,
    State.run_pulse_violation (s.atRead q l) n n _ l' (1 + n) _ _ hr hb
      (by rw [he, Env.highAt_after_levels]; exact hx),
    he, Env.bitTrace_after_levels, Env.highAt_after_levels, Env.pulseTrace_after_levels, Env.readingAt_after,
    Env.readingAt_after, Nat.zero_add, Nat.zero_add]
  have ha2 : (s.env.after (q + 1) 0).after n (2 * (n + 1)) = s.env.after (q + 1 + n) (2 * (n + 1)) := by
    rw [Env.after_after, Nat.zero_add]
  have hvn : (s.env.after (q + 1) 0).highAt n = s.env.highAt n := Env.highAt_after_levels _ _ _
  congr 1
  simp only [State.ran, State.atRead, State.polled, State.inPhase, ha2, hvn, afterLast, List.append_assoc]

/-- An acquisition that is never ready (R128, R204). -/
theorem State.run_acquire_timeout (s : State) (hr : s.resetAsserted = false) (hb : s.regs.busy = true) (m : Nat)
    (rest : List MicroOp) (hd : ∀ i < 171, s.env.levelAt i = true) :
    ∃ l, s.latches.Keeps l ∧
      { s with todo := acquireThen rest }.runToEnd (m + 856) =
        ((s.inPhase .polling).polled 171 l).terminate .notReady 171 := by
  let b : State := { s.inPhase .polling with latches := { s.latches with p := .of 0 } }
  obtain ⟨l, hl, e⟩ := b.run_never_ready m (readSample ++ (MicroOp.writeRaw :: MicroOp.emitSample :: rest)) hr hb rfl hd
  refine ⟨l, ⟨hl.1, hl.2, hl.3⟩, ?_⟩
  have hs : acquireThen rest = .setPhase .polling :: .clearP ::
      (pollOps ++ (readSample ++ (MicroOp.writeRaw :: MicroOp.emitSample :: rest))) := rfl
  rw [hs, show m + 856 = m + 854 + 1 + 1 by omega, State.run_op _ _ _ _ hr hb]
  have h1 : ({ s with todo := .clearP :: (pollOps ++ (readSample ++ (MicroOp.writeRaw :: MicroOp.emitSample :: rest))) } : State).runOp
      (.setPhase .polling) =
      { s.inPhase .polling with todo := .clearP :: (pollOps ++ (readSample ++ (MicroOp.writeRaw :: MicroOp.emitSample :: rest))) } := rfl
  rw [h1, State.run_op _ _ _ _ (by exact hr) (by exact hb)]
  exact e

end Sys2Proof.Machine
end

