-- ==== Sys2Proof/Laws/Step.lean ====
section
/-! SUPPORT. What a write, a command and a step can do, each said once; how an invariant of every step is proved. -/

namespace Sys2Proof.Machine

/-- What every micro-step keeps, a run keeps. -/
theorem State.runToEnd_invariant (P : State → Prop) (h : ∀ s, P s → P s.microStep) (n : Nat) (s : State) (hs : P s) :
    P (s.runToEnd n) := by
  induction n generalizing s with
  | zero => exact hs
  | succ n ih =>
    rw [State.runToEnd]; split
    · exact ih _ (h _ hs)
    · exact hs

/-- What every operation taken off the sequence keeps, a micro-step keeps. -/
theorem State.microStep_invariant (P : State → Prop)
    (h : ∀ (s : State) op rest, s.todo = op :: rest → P s → P ({ s with todo := rest }.runOp op)) (s : State)
    (hs : P s) : P s.microStep := by
  rw [State.microStep]; split
  · exact hs
  · split
    · exact hs
    · next op rest e => exact h s op rest e hs

/-- What a command presented alone can do: it is ignored, dropped, rejected or run. -/
theorem State.runCommand_cases (s : State) (i : Instr) (hi : i.IsCommand) :
    (s.resetAsserted = true ∧ s.runCommand (commandWord i) = s.observe) ∨
    (s.resetAsserted = false ∧ s.regs.busy = true ∧
      s.runCommand (commandWord i) = { s with regs := { s.regs with ovr := true } }.observe) ∨
    (∃ code info, s.resetAsserted = false ∧ s.regs.busy = false ∧
      s.runCommand (commandWord i) = (s.reject code info).observe) ∨
    (s.Accepting ∧ s.Meets i ∧ s.runCommand (commandWord i) = (s.start i).observe.runToEnd commandBound) := by
  by_cases hr : s.resetAsserted = true
  · left; simp [State.runCommand, State.hostWrite, State.regWrite, hr]
  have hr : s.resetAsserted = false := by simpa using hr
  by_cases hb : s.regs.busy = true
  · right; left; simp [State.runCommand, State.hostWrite, State.regWrite, hr, hb, State.accept]
  have hb : s.regs.busy = false := by simpa using hb
  have e : s.runCommand (commandWord i) = (s.accept (commandWord i)).observe.runToEnd commandBound := by
    simp [State.runCommand, State.hostWrite, State.regWrite, hr, hb]
  have rej : ∀ code info, s.accept (commandWord i) = s.reject code info →
      s.runCommand (commandWord i) = (s.reject code info).observe := by
    intro code info h; rw [e, h, State.runToEnd_idle _ _ (by simpa using hb)]
  rcases s.accept_cases (commandWord i) with ⟨h1,_⟩ | ⟨_,h,_⟩ | ⟨j,_,hj,h⟩
  · simp [hb] at h1
  · rw [decodeCommand_commandWord i hi] at h; cases h
  · rw [decodeCommand_commandWord i hi] at hj; cases hj
    rcases h with ⟨_,h⟩ | ⟨_,_,_,h⟩ | ⟨_,_,_,h⟩ | ⟨hp,hm,h⟩
    · exact .inr (.inr (.inl ⟨_,_,hr,hb,rej _ _ h⟩))
    · exact .inr (.inr (.inl ⟨_,_,hr,hb,rej _ _ h⟩))
    · exact .inr (.inr (.inl ⟨_,_,hr,hb,rej _ _ h⟩))
    · exact .inr (.inr (.inr ⟨⟨hr,hb,hp⟩,hm,by rw [e, h]⟩))

/-- What a write can do (R181). -/
theorem State.regWrite_cases (s : State) (idx : Nat) (w : Word) :
    s.regWrite idx w = s ∨ (s.resetAsserted = false ∧ idx = 0 ∧ s.regWrite idx w = s.accept w) ∨
    (∃ b, s.regWrite idx w = { s with regs := { s.regs with ovr := b } }) ∨
    (idx = 2 ∧ s.regWrite idx w = { s with regs := { s.regs with fraction := w } }) := by
  unfold State.regWrite
  split
  · exact .inl rfl
  · next hr =>
    split
    · exact .inr (.inl ⟨by simpa using hr, rfl, rfl⟩)
    · split
      · exact .inr (.inr (.inl ⟨_, rfl⟩))
      · exact .inl rfl
    · exact .inr (.inr (.inr ⟨rfl,rfl⟩))
    · exact .inl rfl

/-- What an acceptance can do (R183), in three shapes. -/
theorem State.accept_shapes (s : State) (w : Word) :
    (∃ b, s.accept w = { s with regs := { s.regs with ovr := b } }) ∨
    (∃ c info, s.regs.busy = false ∧ s.accept w = s.reject c info) ∨
    ∃ i, i.IsCommand ∧ s.regs.busy = false ∧ s.regs.phase ≠ .released ∧ s.Meets i ∧ s.accept w = s.start i := by
  rcases s.accept_cases w with ⟨_,h⟩ | ⟨hb,_,h⟩ | ⟨j,hb,hj,h⟩
  · exact .inl ⟨_, h⟩
  · exact .inr (.inl ⟨_,_,hb,h⟩)
  · rcases h with ⟨_,h⟩ | ⟨_,_,_,h⟩ | ⟨_,_,_,h⟩ | ⟨hp,hm,h⟩
    · exact .inr (.inl ⟨_,_,hb,h⟩)
    · exact .inr (.inl ⟨_,_,hb,h⟩)
    · exact .inr (.inl ⟨_,_,hb,h⟩)
    · refine .inr (.inr ⟨j, ?_, hb, hp, hm, h⟩)
      unfold decodeCommand at hj
      split at hj
      · cases hj
      · split at hj <;> first | (cases hj; simp [Instr.IsCommand]) | cases hj

/-- The next states of an instruction: a command's, a read's, a write's. -/
theorem exec_cases (s t : State) (i : Instr) (h : exec i s = .next t) :
    (i.IsCommand ∧ t = s.runCommand (commandWord i)) ∨
    (∃ idx, i = .rd idx ∧ t = s.hostRead idx) ∨ ∃ idx w, i = .wr idx w ∧ t = s.hostWrite idx w := by
  cases i with
  | rd idx =>
    simp only [exec, execRd] at h
    split at h <;> cases h
    exact .inr (.inl ⟨idx, rfl, rfl⟩)
  | wr idx w =>
    simp only [exec, execWr] at h
    split at h <;> cases h
    exact .inr (.inr ⟨idx, w, rfl, rfl⟩)
  | _ =>
    simp only [exec, execPulse, execCalibrate, execIsReady, execMeasureRaw, execCalZero, execCalUnit, execMeasure,
      execRelease] at h
    cases h
    exact .inl ⟨by simp [Instr.IsCommand], rfl⟩

/-- Of `n` pulses all are valid, or one is the first that is not. -/
theorem first_violation (f : Nat → Word) (n : Nat) :
    (∀ i < n, ValidHigh (f i)) ∨ ∃ k < n, (∀ i < k, ValidHigh (f i)) ∧ ¬ValidHigh (f k) := by
  induction n with
  | zero => simp
  | succ n ih =>
    rcases ih with h | ⟨k, hk, h⟩
    · by_cases hv : ValidHigh (f n)
      · refine .inl fun i hi => ?_
        rcases Nat.lt_succ_iff_lt_or_eq.mp hi with h' | rfl
        exacts [h i h', hv]
      · exact .inr ⟨n, by omega, h, hv⟩
    · exact .inr ⟨k, by omega, h⟩

/-- Of `n` reads all return 1, or one is the first that returns 0. -/
theorem first_zero (f : Nat → Bool) (n : Nat) :
    (∀ i < n, f i = true) ∨ ∃ k < n, (∀ i < k, f i = true) ∧ f k = false := by
  induction n with
  | zero => simp
  | succ n ih =>
    rcases ih with h | ⟨k, hk, h⟩
    · cases hv : f n
      · exact .inr ⟨n, by omega, h, hv⟩
      · refine .inl fun i hi => ?_
        rcases Nat.lt_succ_iff_lt_or_eq.mp hi with h' | rfl
        exacts [h i h', hv]
    · exact .inr ⟨k, by omega, h⟩

/-- What each piece a step is made of keeps, the step keeps. -/
theorem step_invariant (P : State → Prop)
    (hagenda : ∀ s a, P s → P { s with agenda := a })
    (hread : ∀ (s : State) idx, P s → P (s.hostRead idx)) (hobserve : ∀ s, P s → P s.observe)
    (hovr : ∀ (s : State) b, P s → P { s with regs := { s.regs with ovr := b } })
    (hfrac : ∀ (s : State) w, P s → P { s with regs := { s.regs with fraction := w } })
    (hrej : ∀ (s : State) c info, s.regs.busy = false → P s → P (s.reject c info))
    (hstart : ∀ (s : State) i, i.IsCommand → s.regs.busy = false → s.regs.phase ≠ .released → P s → P (s.start i))
    (hmicro : ∀ s, P s → P s.microStep)
    (hassert : ∀ s, P s → P s.assertReset) (hdeassert : ∀ s, P s → P s.deassertReset)
    (s t : State) (hs : P s) (h : step s = .next t) : P t := by
  have hacc : ∀ s w, P s → P (s.accept w) := by
    intro s w hs
    rcases s.accept_shapes w with ⟨b, h⟩ | ⟨c, info, hb, h⟩ | ⟨i, hi, hb, hp, _, h⟩ <;> rw [h]
    · exact hovr _ _ hs
    · exact hrej _ _ _ hb hs
    · exact hstart _ _ hi hb hp hs
  have hwr : ∀ s idx w, P s → P (s.hostWrite idx w) := by
    intro s idx w hs
    refine hobserve _ ?_
    rcases s.regWrite_cases idx w with h | ⟨_,_,h⟩ | ⟨b,h⟩ | ⟨_,h⟩ <;> rw [h]
    · exact hs
    · exact hacc _ _ hs
    · exact hovr _ _ hs
    · exact hfrac _ _ hs
  have hcmd : ∀ s w, P s → P (s.runCommand w) := by
    intro s w hs
    rw [State.runCommand]; split
    · exact hwr _ _ _ hs
    · exact State.runToEnd_invariant P hmicro _ _ (hwr _ _ _ hs)
  have hexec : ∀ i s t, P s → exec i s = .next t → P t := by
    intro i s t hs h
    rcases exec_cases s t i h with ⟨_, rfl⟩ | ⟨_, _, rfl⟩ | ⟨_, _, _, rfl⟩
    · exact hcmd _ _ hs
    · exact hread _ _ hs
    · exact hwr _ _ _ hs
  have heng : ∀ s t, P s → engineTurn s = .next t → P t := by
    intro s t hs h
    unfold engineTurn at h
    split at h
    · cases h; exact hs
    · split at h
      · cases h; exact hs
      · split at h <;> cases h
        exact hmicro _ hs
  unfold step at h
  split at h
  · exact heng _ _ hs h
  · next tn rest e =>
    have hs' := hagenda s rest hs
    unfold takeTurn at h
    split at h
    · exact heng _ _ hs' h
    · unfold hostTurn at h
      split at h
      · exact hexec _ _ _ hs' h
      · cases h; exact hwr _ _ _ hs'
      · cases h
      · cases h
    · cases h; exact hassert _ hs'
    · cases h; exact hdeassert _ hs'

end Sys2Proof.Machine
end

