-- ==== Sys2Proof/Laws/Latches.lean ====
section
/-! SUPPORT. No sequence reads a latch before it is written (R47): the engine's turns are the micro-steps of a run. -/

namespace Sys2Proof.Machine

/-- A sequence that may read the latches of `a` may read those of any larger set. -/
theorem writtenBeforeRead_mono (todo : List MicroOp) (a b : List LatchName) (hab : ∀ n ∈ a, n ∈ b)
    (h : writtenBeforeRead a todo = true) : writtenBeforeRead b todo = true := by
  induction todo generalizing a b with
  | nil => rfl
  | cons op rest ih =>
    simp only [writtenBeforeRead, Bool.and_eq_true, List.all_eq_true, List.contains_iff_mem] at h ⊢
    refine ⟨fun n hn => hab n (h.1 n hn), ih _ _ ?_ h.2⟩
    intro n hn
    simp only [List.mem_append] at hn ⊢
    exact hn.imp id (hab n)

/-- The latches a rule has written, as a list. -/
def Latches.known (l : Latches) : List LatchName := allLatches.filter l.isWritten

theorem Latches.mem_known (l : Latches) (n : LatchName) : n ∈ l.known ↔ l.isWritten n = true := by
  cases n <;> simp [Latches.known, allLatches]

/-- What a micro-step leaves of its sequence: all the rest, nothing, or one more attempt of the ready poll before the
rest. -/
theorem State.runOp_todo (s : State) (op : MicroOp) :
    (s.runOp op).todo = s.todo ∨ (s.runOp op).todo = [] ∨
      (op = .pollTest ∧ (s.runOp op).todo = .sleep :: (pollOps ++ s.todo)) := by
  cases op
  case validate => simp only [State.runOp, State.validate]; split <;> (try split) <;> simp
  case checkCal => simp only [State.runOp, State.checkCal]; split <;> simp
  case pollTest => simp only [State.runOp, State.pollTest]; split <;> (try split) <;> simp
  all_goals simp [State.runOp]

/-- A micro-step unwrites no latch and writes its own. -/
theorem State.runOp_written (s : State) (op : MicroOp) (n : LatchName)
    (h : n ∈ op.writes ∨ s.latches.isWritten n = true) : (s.runOp op).latches.isWritten n = true := by
  cases op
  case validate => simp only [State.runOp, State.validate]; split <;> (try split) <;> simpa [MicroOp.writes] using h
  case checkCal => simp only [State.runOp, State.checkCal]; split <;> simpa [MicroOp.writes] using h
  case pollTest => simp only [State.runOp, State.pollTest]; split <;> (try split) <;> simpa [MicroOp.writes] using h
  all_goals cases n <;> simp_all [State.runOp, MicroOp.writes, Latches.isWritten]

/-- Every micro-step keeps the rule of R47. -/
theorem State.LatchInv.microStep {s : State} (hs : s.LatchInv) : s.microStep.LatchInv := by
  revert s
  apply State.microStep_invariant
  intro s op rest e hs
  have hk : ∀ n ∈ op.writes ++ s.latches.known, n ∈ ({ s with todo := rest }.runOp op).latches.known := by
    intro n hn
    rw [Latches.mem_known]
    refine State.runOp_written _ _ _ ?_
    simpa [Latches.mem_known] using hn
  change writtenBeforeRead s.latches.known s.todo = true at hs
  change writtenBeforeRead ({ s with todo := rest }.runOp op).latches.known _ = true
  rw [e] at hs
  simp only [writtenBeforeRead, Bool.and_eq_true] at hs
  rcases State.runOp_todo { s with todo := rest } op with h | h | ⟨rfl, h⟩ <;> rw [h]
  · exact writtenBeforeRead_mono _ _ _ hk hs.2
  · rfl
  · refine writtenBeforeRead_mono _ _ _ hk ?_
    obtain ⟨h1, h2⟩ := hs
    simp only [MicroOp.reads, List.all_cons, List.all_nil, Bool.and_true, Bool.and_eq_true] at h1
    obtain ⟨-, hp, hc⟩ := h1
    simp [writtenBeforeRead, pollOps, MicroOp.reads, MicroOp.writes] at hp hc h2 ⊢
    refine ⟨hp, hc, writtenBeforeRead_mono _ _ _ ?_ h2⟩
    simp +contextual

/-- A command just started keeps to R47. -/
theorem State.start_latchInv (s : State) (i : Instr) (hi : i.IsCommand) : (s.start i).LatchInv := by
  change writtenBeforeRead (s.start i).latches.known (programOf i) = true
  have hc : LatchName.cmdL ∈ (s.start i).latches.known := by rw [Latches.mem_known]; rfl
  by_cases h : i = .calUnit
  · subst h
    refine writtenBeforeRead_mono _ [.cmdL, .fracL] _ (fun n hn => ?_) (by decide +kernel)
    simp only [List.mem_cons, List.not_mem_nil, or_false] at hn
    rcases hn with rfl | rfl <;> (rw [Latches.mem_known]; rfl)
  · refine writtenBeforeRead_mono _ [.cmdL] _ (fun n hn => ?_) ?_
    · simp only [List.mem_cons, List.not_mem_nil, or_false] at hn
      exact hn ▸ hc
    · rcases hi with rfl | rfl | rfl | rfl | rfl | rfl | rfl | rfl
      all_goals first
        | exact absurd rfl h
        | decide +kernel

/-- An engine turn that keeps to R47 is a micro-step. -/
theorem State.LatchInv.engineTurn {s : State} (hs : s.LatchInv) : engineTurn s = .next s.microStep := by
  by_cases hr : s.resetAsserted = true
  · simp [Machine.engineTurn, State.microStep, hr]
  · cases e : s.todo with
    | nil => simp [Machine.engineTurn, State.microStep, hr, e]
    | cons op rest =>
      have hn : s.latches.firstUnwritten op = none := by
        change writtenBeforeRead s.latches.known s.todo = true at hs
        rw [e] at hs
        simp only [writtenBeforeRead, Bool.and_eq_true, List.all_eq_true, List.contains_iff_mem,
          Latches.mem_known] at hs
        simp only [Latches.firstUnwritten, List.find?_eq_none]
        intro n h
        simp [hs.1 n h]
      simp [Machine.engineTurn, State.microStep, hr, e, hn]

/-- What an operation leaves of the agenda. -/
theorem State.runOp_agenda (s : State) (op : MicroOp) : (s.runOp op).agenda = s.agenda := by
  cases op
  case validate => simp only [State.runOp, State.validate]; split <;> (try split) <;> rfl
  case checkCal => simp only [State.runOp, State.checkCal]; split <;> rfl
  case pollTest => simp only [State.runOp, State.pollTest]; split <;> (try split) <;> rfl
  all_goals simp [State.runOp]

/-- BUSY is 0 only where nothing is left to run. -/
def State.DoneWhenIdle (s : State) : Prop := s.regs.busy = false → s.todo = []

theorem State.DoneWhenIdle.microStep {s : State} (hs : s.DoneWhenIdle) : s.microStep.DoneWhenIdle := by
  revert s
  apply State.microStep_invariant
  intro s op rest e hs hb
  have hbusy : s.regs.busy = true := by
    by_contra hb
    rw [hs (by simpa using hb)] at e
    cases e
  cases op
  case validate =>
    revert hb
    simp only [State.runOp, State.validate]
    split <;> (try split) <;> simp [hbusy]
  case checkCal =>
    revert hb
    simp only [State.runOp, State.checkCal]
    split <;> simp [hbusy]
  case pollTest =>
    revert hb
    simp only [State.runOp, State.pollTest]
    split <;> (try split) <;> simp [hbusy]
  all_goals simp_all [State.runOp]

/-- The engine's turns alone, one after another, are the micro-steps of a run, and none of them stops. -/
theorem core_run_eq (n : Nat) (s : State) (hl : s.LatchInv) (ha : s.agenda = []) (hd : s.DoneWhenIdle) :
    Host.Core.run core n s = .next (s.runToEnd n) := by
  induction n generalizing s with
  | zero => rfl
  | succ n ih =>
    have hstep : core.step s = .next s.microStep := by
      change step s = _
      rw [step, ha]
      exact hl.engineTurn
    have hm : s.microStep.agenda = [] := by
      unfold State.microStep
      split
      · exact ha
      · split
        · exact ha
        · rw [State.runOp_agenda]; exact ha
    simp only [Host.Core.run, hstep]
    rw [ih _ hl.microStep hm hd.microStep, State.runToEnd]
    split
    · rfl
    · next hb =>
      have ht := hd (by simpa using hb)
      have : s.microStep = s := by
        unfold State.microStep
        split
        · rfl
        · rw [ht]
      rw [this, State.runToEnd_idle _ _ (by simpa using hb)]

end Sys2Proof.Machine
end

