-- ==== Sys2Proof/Laws/Operands.lean ====
section
/-! SUPPORT. What the operations on a sample give: the decoder is two's complement (R130), the shift puts the new bit last
(R129). -/

namespace Sys2Proof.Machine

theorem bitMask_xor (v : Sample) : v ^^^ Config.bitMask = ~~~v := by
  rw [show Config.bitMask = BitVec.allOnes Config.nBits from rfl, BitVec.xor_allOnes]

/-- `Decode20` is the two's-complement reading of its pattern (R130). -/
theorem decode20_eq_toInt (v : Sample) : decode20 v = v.toInt := by
  have h : v.getLsbD Config.signBit = decide (2 ^ 19 ≤ v.toNat) := by
    have h := v.msb_eq_getLsbD_last
    rw [BitVec.msb_eq_decide] at h
    exact h.symm
  have := v.isLt
  rw [decode20, h, bitMask_xor, BitVec.toNat_not, BitVec.toInt_eq_toNat_cond]
  simp only [Config.nBits, decide_eq_true_eq] at *
  split <;> split <;> omega

/-- A sample lies in [RAW_MIN, RAW_MAX] (R7). -/
theorem sample_toInt_range (v : Sample) : Config.rawMin ≤ v.toInt ∧ v.toInt ≤ Config.rawMax := by
  have := v.isLt
  rw [BitVec.toInt_eq_toNat_cond, Config.rawMin, Config.rawMax]
  simp only [Config.nBits] at *
  split <;> omega

/-- The bits of an accumulator after one more bit (R129). -/
theorem getLsbD_shiftIn (acc : Sample) (b : Bool) (i : Nat) (hi : i < Config.nBits) :
    (shiftIn acc b).getLsbD i = if i = 0 then b else acc.getLsbD (i - 1) := by
  rw [shiftIn, BitVec.getLsbD_append]
  cases i with
  | zero => simp
  | succ i =>
    have h : i < 19 := by simp only [Config.nBits] at hi; omega
    simp [h]

end Sys2Proof.Machine
end

