-- ==== Sys2Proof/Laws/PerInstr.lean ====
section
/-! SUPPORT. One lemma for each instruction: how many bytes its encoding has (R81, R86). -/

namespace Sys2Proof

theorem leBytes_length (n v : Nat) : (leBytes n v).length = n := by
  induction n generalizing v with
  | zero => rfl
  | succ n ih => simp [leBytes, ih]

theorem leValue_leBytes (n v : Nat) : leValue (leBytes n v) = v % 256 ^ n := by
  induction n generalizing v with
  | zero => simp [leBytes, leValue, Nat.mod_one]
  | succ n ih =>
    rw [leBytes, leValue, ih, BitVec.toNat_ofNat, show 2 ^ 8 = 256 from rfl, Nat.pow_succ, Nat.mul_comm (256 ^ n),
      Nat.mod_mul]

namespace Laws.EncodeWidth

/-- A command is encoded in the eight bytes of one command word (R81), a host transaction in nine. -/
def Statement (i : Instr) : Prop :=
  (i.IsCommand → (encode i).length = 8) ∧ (¬i.IsCommand → (encode i).length = 9)

theorem pulse : Statement .pulse := ⟨fun _ => rfl, fun h => absurd (by simp [Instr.IsCommand]) h⟩

theorem calibrate : Statement .calibrate := ⟨fun _ => rfl, fun h => absurd (by simp [Instr.IsCommand]) h⟩

theorem isReady : Statement .isReady := ⟨fun _ => rfl, fun h => absurd (by simp [Instr.IsCommand]) h⟩

theorem measureRaw : Statement .measureRaw := ⟨fun _ => rfl, fun h => absurd (by simp [Instr.IsCommand]) h⟩

theorem calZero : Statement .calZero := ⟨fun _ => rfl, fun h => absurd (by simp [Instr.IsCommand]) h⟩

theorem calUnit : Statement .calUnit := ⟨fun _ => rfl, fun h => absurd (by simp [Instr.IsCommand]) h⟩

theorem measure : Statement .measure := ⟨fun _ => rfl, fun h => absurd (by simp [Instr.IsCommand]) h⟩

theorem release : Statement .release := ⟨fun _ => rfl, fun h => absurd (by simp [Instr.IsCommand]) h⟩

theorem rd (idx : Nat) : Statement (.rd idx) :=
  ⟨fun h => by simp [Instr.IsCommand] at h, fun _ => leBytes_length 9 _⟩

theorem wr (idx : Nat) (data : Word) : Statement (.wr idx data) :=
  ⟨fun h => by simp [Instr.IsCommand] at h, fun _ => leBytes_length 9 _⟩

end Laws.EncodeWidth

end Sys2Proof
end

