-- ==== Sys2Proof/Laws/Rounding.lean ====
section
/-! SUPPORT. What the rounding of the binary64 primitives does (R17, R151), in whole numbers. -/

namespace Sys2Proof.Machine

/-- The rounded quotient is one of the two whole numbers around the quotient, and how far it is from it. -/
theorem roundHalfEven_cases (n d : Nat) (hd : 0 < d) :
    (roundHalfEven n d = n / d ∧ (2 * (n % d) < d ∨ 2 * (n % d) = d ∧ n / d % 2 = 0)) ∨
    (roundHalfEven n d = n / d + 1 ∧ (d < 2 * (n % d) ∨ 2 * (n % d) = d ∧ n / d % 2 = 1)) := by
  unfold roundHalfEven
  have := Nat.mod_lt n hd
  split <;> omega

/-- The distance of a fraction with denominator `d` from a whole number, times `d`. -/
def distance (n d v : Nat) : Nat := ((n : Int) - v * d).natAbs

/-- No whole number is nearer than the rounded one, and one that is as near leaves it even. -/
theorem roundHalfEven_nearest (n d k : Nat) (hd : 0 < d) :
    distance n d (roundHalfEven n d) ≤ distance n d k ∧
      (k ≠ roundHalfEven n d → distance n d (roundHalfEven n d) = distance n d k → roundHalfEven n d % 2 = 0) := by
  have e := Nat.div_add_mod n d
  have hm := Nat.mod_lt n hd
  have hr := roundHalfEven_cases n d hd
  have h0 : ∀ j : Nat, distance n d j = ((d : Int) * (n / d : Nat) + (n % d : Nat) - d * j).natAbs := by
    intro j
    unfold distance
    congr 1
    have : (n : Int) = d * (n / d : Nat) + (n % d : Nat) := by exact_mod_cast e.symm
    rw [mul_comm (j : Int)]
    omega
  generalize n / d = a at *
  generalize n % d = b at *
  have hlow : k ≤ a → distance n d k = d * (a - k) + b := by
    intro h
    obtain ⟨c, rfl⟩ := Nat.exists_eq_add_of_le h
    rw [h0, Nat.add_sub_cancel_left]
    have : (d : Int) * ((k + c : Nat) : Int) = d * k + (d * c : Nat) := by push_cast; ring
    rw [this]
    omega
  have hhigh : a + 1 ≤ k → distance n d k + b = d * (k - a) := by
    intro h
    obtain ⟨c, rfl⟩ := Nat.exists_eq_add_of_le h
    rw [h0, show a + 1 + c - a = 1 + c by omega]
    have : (d : Int) * ((a + 1 + c : Nat) : Int) = d * a + d + (d * c : Nat) := by push_cast; ring
    have h2 : d * (1 + c) = d + d * c := by ring
    rw [this, h2]
    omega
  have hk : k ≤ a ∧ (k = a ∨ d ≤ d * (a - k)) ∨ a + 1 ≤ k ∧ (k = a + 1 ∨ 2 * d ≤ d * (k - a)) := by
    rcases Nat.lt_or_ge a k with h | h
    · refine .inr ⟨h, ?_⟩
      by_cases hk : k = a + 1
      · exact .inl hk
      · exact .inr (by rw [mul_comm 2]; exact Nat.mul_le_mul_left d (by omega))
    · refine .inl ⟨h, ?_⟩
      by_cases hk : k = a
      · exact .inl hk
      · exact .inr (Nat.le_mul_of_pos_right d (by omega))
  have la : distance n d a = b := by
    have := h0 a
    rw [this]
    omega
  have lb : distance n d (a + 1) + b = d := by
    have := h0 (a + 1)
    rw [this]
    have : (d : Int) * ((a + 1 : Nat) : Int) = d * a + d := by push_cast; ring
    omega
  rcases hr with ⟨hr, hc⟩ | ⟨hr, hc⟩ <;> rw [hr]
  · rcases hk with ⟨h, h'⟩ | ⟨h, h'⟩
    · have := hlow h
      rcases h' with rfl | h' <;> refine ⟨by omega, fun h1 h2 => ?_⟩ <;> omega
    · have := hhigh h
      rcases h' with rfl | h' <;> refine ⟨by omega, fun h1 h2 => ?_⟩ <;> omega
  · rcases hk with ⟨h, h'⟩ | ⟨h, h'⟩
    · have := hlow h
      rcases h' with rfl | h' <;> refine ⟨by omega, fun h1 h2 => ?_⟩ <;> omega
    · have := hhigh h
      rcases h' with rfl | h' <;> refine ⟨by omega, fun h1 h2 => ?_⟩ <;> omega

/-- The magnitude of the number whose 63 low bits form `m`, in units of 2^−1074. -/
def magnitudeValue (m : Nat) : Nat := if m < 2 ^ 52 then m else (2 ^ 52 + m % 2 ^ 52) * 2 ^ (m / 2 ^ 52 - 1)

/-- A significand `r` in units of 2^q makes the number it should, carries included. -/
theorem magnitudeValue_make (q r : Nat) (hr : r ≤ 2 ^ 53) (hq : q = 0 ∨ 2 ^ 52 ≤ r) :
    magnitudeValue (q * 2 ^ 52 + r) = r * 2 ^ q := by
  unfold magnitudeValue
  by_cases h : r < 2 ^ 52
  · have : q = 0 := by omega
    subst this
    simp only [Nat.zero_mul, Nat.zero_add, Nat.pow_zero, Nat.mul_one, if_pos h]
  · rw [if_neg (by omega)]
    by_cases h2 : r = 2 ^ 53
    · subst h2
      rw [show (q * 2 ^ 52 + 2 ^ 53) % 2 ^ 52 = 0 by omega, show (q * 2 ^ 52 + 2 ^ 53) / 2 ^ 52 - 1 = q + 1 by omega,
        Nat.pow_succ 2 q]
      ring
    · rw [show 2 ^ 52 + (q * 2 ^ 52 + r) % 2 ^ 52 = r by omega, show (q * 2 ^ 52 + r) / 2 ^ 52 - 1 = q by omega]

/-- The power of two of the last place kept, against the quotient. -/
theorem quotient_range (x q : Nat) (hq : q = Nat.log2 x - 52) :
    x < 2 ^ (q + 53) ∧ (q = 0 ∨ 2 ^ (q + 52) ≤ x) := by
  by_cases hx : x = 0
  · subst hx
    simp at hq
    subst hq
    simp
  · refine ⟨(Nat.log2_lt hx).mp (by omega), ?_⟩
    by_cases h : q = 0
    · exact .inl h
    · exact .inr ((Nat.le_log2 hx).mp (by omega))

/-- Every magnitude is a multiple of 2^q or lies below the magnitudes whose last place that is. -/
theorem magnitudeValue_grid (m q : Nat) : 2 ^ q ∣ magnitudeValue m ∨ magnitudeValue m < 2 ^ (q + 52) := by
  unfold magnitudeValue
  split
  · next h =>
    refine .inr (Nat.lt_of_lt_of_le h (Nat.pow_le_pow_right (by decide) (by omega)))
  · by_cases h : q ≤ m / 2 ^ 52 - 1
    · exact .inl (Dvd.dvd.mul_left (Nat.pow_dvd_pow 2 h) _)
    · right
      calc (2 ^ 52 + m % 2 ^ 52) * 2 ^ (m / 2 ^ 52 - 1) < 2 ^ 53 * 2 ^ (m / 2 ^ 52 - 1) :=
            Nat.mul_lt_mul_of_pos_right (by omega) (Nat.pow_pos (by decide))
        _ = 2 ^ (53 + (m / 2 ^ 52 - 1)) := (Nat.pow_add 2 53 _).symm
        _ ≤ 2 ^ (q + 52) := Nat.pow_le_pow_right (by decide) (by omega)

theorem distance_scale (n d v w : Nat) : distance n (d * w) v = distance n d (v * w) := by
  unfold distance
  congr 1
  push_cast
  ring

/-- Below the quotient, the larger of two numbers is the nearer. -/
theorem distance_lt_of_lt (n d v w : Nat) (hd : 0 < d) (hv : v < w) (hw : w ≤ n / d) :
    distance n d w < distance n d v := by
  have h1 : w * d ≤ n := (Nat.le_div_iff_mul_le hd).mp hw
  have h2 : v * d < w * d := Nat.mul_lt_mul_of_pos_right hv hd
  unfold distance
  have e1 : (w : Int) * d = (w * d : Nat) := by push_cast; rfl
  have e2 : (v : Int) * d = (v * d : Nat) := by push_cast; rfl
  rw [e1, e2]
  omega

/-- The significand that rounding keeps, for a last place of 2^q. -/
theorem significand_range (n d q : Nat) (hd : 0 < d) (hq : q = Nat.log2 (n / d) - 52) :
    roundHalfEven n (d * 2 ^ q) ≤ 2 ^ 53 ∧ (q = 0 ∨ 2 ^ 52 ≤ roundHalfEven n (d * 2 ^ q)) := by
  obtain ⟨h1, h2⟩ := quotient_range (n / d) q hq
  have hp : 0 < 2 ^ q := Nat.pow_pos (by decide)
  have hlt : n / (d * 2 ^ q) < 2 ^ 53 := by
    rw [← Nat.div_div_eq_div_mul]
    exact (Nat.div_lt_iff_lt_mul hp).mpr (by rw [← Nat.pow_add, Nat.add_comm]; exact h1)
  have hge : q = 0 ∨ 2 ^ 52 ≤ n / (d * 2 ^ q) := by
    refine h2.imp id fun h => ?_
    rw [← Nat.div_div_eq_div_mul]
    exact (Nat.le_div_iff_mul_le hp).mpr (by rw [← Nat.pow_add, Nat.add_comm]; exact h)
  rcases roundHalfEven_cases n (d * 2 ^ q) (Nat.mul_pos hd hp) with ⟨h, _⟩ | ⟨h, _⟩ <;> rw [h] <;> omega

/-- The rounded magnitude before it is cut at the infinity: no magnitude is nearer to `n / d`, and where another one is
as near, its last bit is 0. -/
theorem rounded_nearest (n d q m : Nat) (hd : 0 < d) (hq : q = Nat.log2 (n / d) - 52) :
    distance n d (magnitudeValue (q * 2 ^ 52 + roundHalfEven n (d * 2 ^ q))) ≤ distance n d (magnitudeValue m) ∧
      (magnitudeValue m ≠ magnitudeValue (q * 2 ^ 52 + roundHalfEven n (d * 2 ^ q)) →
        distance n d (magnitudeValue (q * 2 ^ 52 + roundHalfEven n (d * 2 ^ q))) = distance n d (magnitudeValue m) →
        (q * 2 ^ 52 + roundHalfEven n (d * 2 ^ q)) % 2 = 0) := by
  obtain ⟨h1, h2⟩ := significand_range n d q hd hq
  have hp : 0 < d * 2 ^ q := Nat.mul_pos hd (Nat.pow_pos (by decide))
  have hs := fun k => roundHalfEven_nearest n (d * 2 ^ q) k hp
  rw [magnitudeValue_make q _ h1 h2]
  generalize hr : roundHalfEven n (d * 2 ^ q) = r at *
  simp only [distance_scale] at hs
  rcases magnitudeValue_grid m q with ⟨k, hk⟩ | hlt
  · rw [hk, Nat.mul_comm (2 ^ q)]
    refine ⟨(hs k).1, fun hne he => ?_⟩
    have := (hs k).2 (fun h => hne (by rw [h])) he
    omega
  · rcases (quotient_range (n / d) q hq).2 with rfl | hge
    · obtain ⟨s1, s2⟩ := hs (magnitudeValue m)
      simp only [Nat.pow_zero, Nat.mul_one] at s1 s2 ⊢
      exact ⟨s1, fun hne he => by have := s2 hne he; omega⟩
    · have hlt' := distance_lt_of_lt n d _ _ hd hlt hge
      have := (hs (2 ^ 52)).1
      rw [← Nat.pow_add, Nat.add_comm 52] at this
      exact ⟨by omega, fun _ he => by omega⟩

/-- A number is rounded up to `m` or more exactly from half a unit below `m` on, for an even `m`. -/
theorem rounded_reaches (n d x m : Nat) (hd : 0 < d) (hx : x * 2 + d = d * (2 * m)) (hm : m % 2 = 0) :
    m ≤ roundHalfEven n d ↔ x ≤ n := by
  have hlow : ∀ a, a + 2 ≤ m → d * a + 2 * d ≤ d * m := fun a h =>
    calc d * a + 2 * d = d * (a + 2) := by ring
      _ ≤ d * m := Nat.mul_le_mul_left d h
  have htop : ∀ a, a + 1 = m → d * a + d = d * m := fun a h => by rw [← h]; ring
  have hhigh : ∀ a, m ≤ a → d * m ≤ d * a := fun a h => Nat.mul_le_mul_left d h
  have hn := Nat.div_add_mod n d
  have hlt := Nat.mod_lt n hd
  have hc := roundHalfEven_cases n d hd
  have hlow := hlow (n / d)
  have htop := htop (n / d)
  have hhigh := hhigh (n / d)
  have h2 : d * (2 * m) = 2 * (d * m) := by ring
  rw [h2] at hx
  generalize roundHalfEven n d = r at *
  generalize n / d = a at *
  generalize n % d = b at *
  generalize d * a = da at *
  generalize d * m = dm at *
  rcases hc with ⟨rfl, hc⟩ | ⟨rfl, hc⟩ <;> omega

/-- The rounded magnitude is cut at the infinity exactly from half a unit past the largest finite number on; `e` is the
power of two of half of that number's last place. -/
theorem rounded_overflow_at (n d q e : Nat) (hd : 0 < d) (hq : q = Nat.log2 (n / d) - 52) :
    (e + 3) * 2 ^ 52 ≤ q * 2 ^ 52 + roundHalfEven n (d * 2 ^ q) ↔ d * ((2 ^ 54 - 1) * 2 ^ e) ≤ n := by
  obtain ⟨h1, h2⟩ := significand_range n d q hd hq
  obtain ⟨q1, q2⟩ := quotient_range (n / d) q hq
  have hpe : 0 < 2 ^ e := Nat.pow_pos (by decide)
  rcases Nat.lt_trichotomy q (e + 1) with hlt | rfl | hgt
  · have : n / d < 2 ^ 53 * 2 ^ e := by
      rw [← Nat.pow_add]
      exact Nat.lt_of_lt_of_le q1 (Nat.pow_le_pow_right (by decide) (by omega))
    have hn : n < 2 ^ 53 * 2 ^ e * d := (Nat.div_lt_iff_lt_mul hd).mp this
    have hle : 2 ^ 53 * 2 ^ e * d ≤ d * ((2 ^ 54 - 1) * 2 ^ e) := by
      rw [Nat.mul_comm]
      exact Nat.mul_le_mul_left d (Nat.mul_le_mul_right _ (by decide))
    omega
  · have hx : ∀ c, d * (c * 2 ^ e) * 2 + d * 2 ^ (e + 1) = d * 2 ^ (e + 1) * (c + 1) := fun c => by
      rw [Nat.pow_succ]
      ring
    have := rounded_reaches n (d * 2 ^ (e + 1)) _ (2 ^ 53) (Nat.mul_pos hd (Nat.pow_pos (by decide)))
      (hx (2 ^ 54 - 1)) (by decide)
    rw [← this]
    omega
  · have h3 : 2 ^ 54 * 2 ^ e ≤ n / d := by
      rw [← Nat.pow_add]
      exact Nat.le_trans (Nat.pow_le_pow_right (by decide) (by omega)) (q2.resolve_left (by omega))
    have h4 : 2 ^ 54 * 2 ^ e * d ≤ n := (Nat.le_div_iff_mul_le hd).mp h3
    have h5 : d * ((2 ^ 54 - 1) * 2 ^ e) ≤ 2 ^ 54 * 2 ^ e * d := by
      rw [Nat.mul_comm]
      exact Nat.mul_le_mul_right d (Nat.mul_le_mul_right _ (by decide))
    omega

theorem fpExp_eq (a : Word) : fpExp a = a.toNat / 2 ^ 52 % 2 ^ 11 := by
  simp [fpExp, BitVec.extractLsb'_toNat, Nat.shiftRight_eq_div_pow]

theorem fpFrac_eq (a : Word) : fpFrac a = a.toNat % 2 ^ 52 := by
  simp [fpFrac, BitVec.extractLsb'_toNat]

/-- The magnitude of a pattern is that of its 63 low bits; the unit of `fpUnits` is half of the other's. -/
theorem fpUnits_eq (a : Word) : fpUnits a = 2 * magnitudeValue (a.toNat % 2 ^ 63) := by
  have := a.isLt
  rw [fpUnits, fpExp_eq, fpFrac_eq, magnitudeValue, show a.toNat % 2 ^ 52 = a.toNat % 2 ^ 63 % 2 ^ 52 by omega,
    show a.toNat / 2 ^ 52 % 2 ^ 11 = a.toNat % 2 ^ 63 / 2 ^ 52 by omega]
  generalize a.toNat % 2 ^ 63 = m
  by_cases hm : m < 2 ^ 52
  · rw [if_pos (by omega), if_pos hm]
    omega
  · rw [if_neg (by omega), if_neg hm]
    obtain ⟨e, he⟩ : ∃ e, m / 2 ^ 52 = e + 1 := ⟨m / 2 ^ 52 - 1, by omega⟩
    rw [he, Nat.pow_succ, Nat.add_sub_cancel]
    ring

theorem fpPack_toNat (s : Bool) (m : Nat) (h : m < 2 ^ 63) :
    (fpPack s m).toNat = (if s then 2 ^ 63 else 0) + m := by
  rw [fpPack, BitVec.toNat_ofNat, Nat.mod_eq_of_lt]
  split <;> omega

theorem fpSign_pack (s : Bool) (m : Nat) (h : m < 2 ^ 63) : fpSign (fpPack s m) = s := by
  unfold fpSign
  rw [← BitVec.testBit_toNat, fpPack_toNat s m h, Nat.testBit_eq_decide_div_mod_eq]
  cases s <;> simp <;> omega

theorem fpExp_pack (s : Bool) (m : Nat) (h : m < 2 ^ 63) : fpExp (fpPack s m) = m / 2 ^ 52 := by
  rw [fpExp_eq, fpPack_toNat s m h]
  split <;> omega

theorem fpFrac_pack (s : Bool) (m : Nat) (h : m < 2 ^ 63) : fpFrac (fpPack s m) = m % 2 ^ 52 := by
  rw [fpFrac_eq, fpPack_toNat s m h]
  split <;> omega

theorem fpUnits_pack (s : Bool) (m : Nat) (h : m < 2 ^ 63) : fpUnits (fpPack s m) = 2 * magnitudeValue m := by
  rw [fpUnits_eq, fpPack_toNat s m h]
  congr 2
  split <;> omega

theorem fpBit0_pack (s : Bool) (m : Nat) (h : m < 2 ^ 63) : (fpPack s m).getLsbD 0 = decide (m % 2 = 1) := by
  rw [← BitVec.testBit_toNat, fpPack_toNat s m h, Nat.testBit_eq_decide_div_mod_eq, Nat.pow_zero, Nat.div_one]
  congr 1
  split <;> (apply propext; omega)

/-- The magnitude of a number that is not zero. -/
theorem fpUnits_ne_zero (a : Word) (h : fpIsZero a = false) : fpUnits a ≠ 0 := by
  unfold fpUnits
  unfold fpIsZero at h
  split
  · next e =>
    simp only [e, decide_true, Bool.true_and, decide_eq_false_iff_not] at h
    omega
  · exact Nat.mul_ne_zero (by omega) (Nat.pos_iff_ne_zero.mp (Nat.pow_pos (by decide)))

/-- A finite number is neither a NaN nor an infinity. -/
theorem fpIsFinite_spec (a : Word) (h : fpIsFinite a = true) : fpIsNaN a = false ∧ fpIsInf a = false := by
  simp only [fpIsFinite, decide_eq_true_eq] at h
  simp [fpIsNaN, fpIsInf, h]

/-- For powers of two too large to be computed. -/
theorem two_pow_succ (e : Nat) : 2 ^ (e + 1) = 2 * 2 ^ e := Nat.pow_succ'

theorem distance_double (n d v : Nat) : distance (2 * n) d (2 * v) = 2 * distance n d v := by
  unfold distance
  have : ((2 * n : Nat) : Int) - (2 * v : Nat) * d = 2 * ((n : Int) - v * d) := by push_cast; ring
  rw [this, Int.natAbs_mul]
  rfl

/-- What rounding `n / d`, a number of units of 2^−1074, to binary64 gives (R17, R151): never a NaN; an infinity exactly
from half a unit past the largest finite number on; else the nearest number, the even one of two that are as near. -/
theorem round_spec (s : Bool) (n d : Nat) (hd : 0 < d) :
    fpSign (fpPack s (roundMagnitude n d)) = s ∧ fpIsNaN (fpPack s (roundMagnitude n d)) = false ∧
    (fpIsFinite (fpPack s (roundMagnitude n d)) = false ↔ d * ((2 ^ 54 - 1) * 2 ^ 2044) ≤ n) ∧
    ∀ c : Word, fpIsFinite (fpPack s (roundMagnitude n d)) = true →
      distance (2 * n) d (fpUnits (fpPack s (roundMagnitude n d))) ≤ distance (2 * n) d (fpUnits c) ∧
      (fpUnits c ≠ fpUnits (fpPack s (roundMagnitude n d)) →
        distance (2 * n) d (fpUnits (fpPack s (roundMagnitude n d))) = distance (2 * n) d (fpUnits c) →
        (fpPack s (roundMagnitude n d)).getLsbD 0 = false) := by
  have ho := rounded_overflow_at n d _ 2044 hd rfl
  have hn := fun m => rounded_nearest n d _ m hd rfl
  have hr : roundMagnitude n d = min ((Nat.log2 (n / d) - 52) * 2 ^ 52 +
      roundHalfEven n (d * 2 ^ (Nat.log2 (n / d) - 52))) (2047 * 2 ^ 52) := rfl
  generalize (Nat.log2 (n / d) - 52) * 2 ^ 52 + roundHalfEven n (d * 2 ^ (Nat.log2 (n / d) - 52)) = R at *
  have hlt : roundMagnitude n d < 2 ^ 63 := by omega
  have hfin : fpIsFinite (fpPack s (roundMagnitude n d)) = true ↔ R < 2047 * 2 ^ 52 := by
    rw [fpIsFinite, fpExp_pack s _ hlt, decide_eq_true_eq]
    omega
  refine ⟨fpSign_pack s _ hlt, ?_, ?_, fun c hf => ?_⟩
  · rw [fpIsNaN, fpExp_pack s _ hlt, fpFrac_pack s _ hlt, Bool.and_eq_false_iff, decide_eq_false_iff_not,
      decide_eq_false_iff_not]
    omega
  · rw [← ho, ← Bool.not_eq_true, hfin]
    omega
  · have hR : roundMagnitude n d = R := by have := hfin.mp hf; omega
    rw [fpUnits_pack s _ hlt, fpBit0_pack s _ hlt, fpUnits_eq c, distance_double, distance_double, hR]
    obtain ⟨h1, h2⟩ := hn (c.toNat % 2 ^ 63)
    refine ⟨by omega, fun hne he => ?_⟩
    have := h2 (by omega) (by omega)
    simp [this]

end Sys2Proof.Machine
end

