-- ==== Sys2Proof/Tests/Slice0.lean ====
section
/-! SUPPORT. Tests of the model on the spec's own vectors (95_test_vectors.md; each test names its vector), and for every
statement with hypotheses a state and operands that meet them. -/

namespace Sys2Proof.Tests

open Sys2Proof.Machine

-- One test after another: tests that wait for the kernel at the same time each hold a thread.
set_option Elab.async false

/-! ### Helpers -/

/-- Time readings that make the pulses to come measure the given high times (the HIGH script of R89). -/
def readings (start : Nat) : List Nat → List Word
  | [] => []
  | h :: hs => BitVec.ofNat 64 start :: BitVec.ofNat 64 (start + h) :: readings (start + h) hs

/-- The levels of a 20-bit pattern, most significant first (`bits(v)` of 95_test_vectors.md). -/
def bits (v : Sample) : List Bool := (List.range 20).map fun i => v.getLsbD (19 - i)

/-- The state after a passing start-up (V-X1), with a DATA and a HIGH script. -/
def idle (data : List Bool) (high : List Nat) : State :=
  { State.reset with
    regs := { resetRegs with busy := false, phase := .idle, cal := .passed, pulses := 26, hightime := 1000 }
    latches := { resetLatches with conf := true }
    sclk := .low
    todo := []
    env := { State.reset.env with levels := data, times := readings 0 high } }

/-- The same with other registers. -/
def idleWith (f : Regs → Regs) (data : List Bool) (high : List Nat) : State :=
  { idle data high with regs := f (idle data high).regs }

/-- High times that are all 1000 ns. -/
def good (n : Nat) : List Nat := List.replicate n 1000

/-- What a field of the next state is. -/
def look {α : Type} (i : Instr) (s : State) (f : State → α) : Option α :=
  match exec i s with
  | .next t => some (f t)
  | .fault _ => none
  | .refused _ => none

/-- STATUS, ERRINFO, PULSES, POLLS and HIGHTIME. -/
def report (t : State) : Word × Word × Word × Word × Word :=
  (statusWord t.regs, t.regs.errinfo, t.regs.pulses, t.regs.polls, t.regs.hightime)

/-! ### Parameters -/

/-- The values of R7, and that those which follow from others do. -/
theorem test_parameters :
    Config.nBits = 20 ∧ Config.signBit = Config.nBits - 1 ∧ Config.bitMask = BitVec.allOnes Config.nBits ∧
      Config.rawMin = -2 ^ Config.signBit ∧ Config.rawMax = 2 ^ Config.signBit - 1 ∧ Config.nCalTotal = 26 := by
  decide

/-! ### Well-formedness -/

/-- No register has index 16 (R63). -/
theorem test_wf_rd : Instr.wf (.rd 16) = false := by decide

theorem test_wf_wr : Instr.wf (.wr 16 0) = false := by decide

/-- The last register has index 15 (R49). -/
theorem test_wf_last : Instr.wf (.rd 15) = true ∧ Instr.wf (.wr 15 0) = true := by decide

/-! ### Decoding: words written out from R80 and R83 (a 64-bit word, OPC in bits 7:0, RSV 0, low byte first), and
transactions from R86 with the model's layout (log entry 7) -/

theorem test_decode_pulse : decode [0x01, 0, 0, 0, 0, 0, 0, 0] = .ok .pulse := by decide

theorem test_decode_calibrate : decode [0x02, 0, 0, 0, 0, 0, 0, 0] = .ok .calibrate := by decide

theorem test_decode_isReady : decode [0x03, 0, 0, 0, 0, 0, 0, 0] = .ok .isReady := by decide

theorem test_decode_measureRaw : decode [0x04, 0, 0, 0, 0, 0, 0, 0] = .ok .measureRaw := by decide

theorem test_decode_calZero : decode [0x05, 0, 0, 0, 0, 0, 0, 0] = .ok .calZero := by decide

theorem test_decode_calUnit : decode [0x06, 0, 0, 0, 0, 0, 0, 0] = .ok .calUnit := by decide

theorem test_decode_measure : decode [0x07, 0, 0, 0, 0, 0, 0, 0] = .ok .measure := by decide

theorem test_decode_release : decode [0x08, 0, 0, 0, 0, 0, 0, 0] = .ok .release := by decide

/-- `we` 0, `idx` 11: 0b0_1011_0. -/
theorem test_decode_rd : decode [0b10110, 0, 0, 0, 0, 0, 0, 0, 0] = .ok (.rd 11) := by decide

/-- `we` 1, `idx` 2, `data` 0x8000000000000001: bit 0 of `data` is bit 5, bit 63 of it is bit 68. -/
theorem test_decode_wr : decode [0b100101, 0, 0, 0, 0, 0, 0, 0, 0b10000] = .ok (.wr 2 0x8000000000000001) := by decide

/-- V-E1 to V-E4: words of the illegal space (R85). -/
theorem test_decode_illegal :
    decodeCommand 0 = none ∧ decodeCommand 9 = none ∧ decodeCommand 0x0000000100000004 = none ∧
      decodeCommand 0x104 = none := by decide

/-- Bytes that are neither a word nor a transaction, and a transaction with a bit above its 69. -/
theorem test_decode_not_presentable :
    decode [0x01] = .error (.notATransaction 1) ∧
      decode [0, 0, 0, 0, 0, 0, 0, 0, 0b100000] = .error .reservedBits := by decide

/-! ### PULSE -/

/-- S4: 100 ns passes. -/
theorem test_pulse_100 : look .pulse (idle [] [100]) report = some (0x10010, 0, 1, 0, 100) := by decide +kernel

/-- S4: 20001 ns is too long; the event says so. -/
theorem test_pulse_20001 :
    look .pulse (idle [] [20001]) (fun t => (report t, t.obs.events)) =
      some ((0x10214, 20001, 1, 0, 20001), [.timingViolation .tooLong 20001]) := by decide +kernel

/-! ### CALIBRATE -/

/-- S5 with V-C6: it passes, in 108 micro-steps of the pin trace. -/
theorem test_calibrate_pass :
    look .calibrate (idle [true, true, true, true] (good 26)) (fun t => (report t, t.obs.trace.length)) =
      some ((0x10010, 0, 26, 0, 1000), 108) := by decide +kernel

/-- S5: check 2 reads 0. -/
theorem test_calibrate_check :
    look .calibrate (idle [true, true, false] (good 26)) (fun t => (report t, t.obs.events)) =
      some ((0x20310, 2, 25, 0, 1000), [.calCheckFailed 2]) := by decide +kernel

/-! ### IS_READY -/

/-- V-R1: the line reads 0. -/
theorem test_isReady_zero :
    look .isReady (idle [false] []) (fun t => (report t, t.obs.trace)) =
      some ((0x10012, 0, 0, 0, 0), [.readData false]) := by decide +kernel

/-- V-R2: the line reads 1. -/
theorem test_isReady_one : look .isReady (idle [true] []) report = some (0x10010, 0, 0, 0, 0) := by decide +kernel

/-! ### MEASURE_RAW -/

/-- V-D7: a negative sample, in RAW, in RAWBITS and in the event. -/
theorem test_measureRaw_negative :
    look .measureRaw (idle (false :: bits 0xFFC18) (good 20)) (fun t => (t.regs.raw, t.regs.rawbits, t.obs.events)) =
      some (0xFFFFFFFFFFFFFC18, 0xFFC18, [.sample 0xFFC18 (-1000)]) := by decide +kernel

/-- V-R6: 171 polls read 1. -/
theorem test_measureRaw_not_ready :
    look .measureRaw (idle (List.replicate 171 true) []) (fun t => (report t, t.obs.trace.length)) =
      some ((0x10410, 171, 0, 171, 0), 341) := by decide +kernel

/-! ### CAL_ZERO -/

/-- V-S40: the least sample. -/
theorem test_calZero_least :
    look .calZero (idle (false :: bits 0x80000) (good 20)) (fun t => t.regs.zero) =
      some 0xFFFFFFFFFFF80000 := by decide +kernel

/-- V-A3 for CAL_ZERO (R213): a violation at the last pulse leaves ZERO and RAW as they were. -/
theorem test_calZero_violation :
    look .calZero (idleWith (fun r => { r with zero := 5, raw := 0x3E8 }) (false :: bits 0xFFC18)
      (good 19 ++ [20001])) (fun t => (report t, t.regs.zero, t.regs.raw)) =
      some ((0x10214, 20001, 20, 1, 20001), 5, 0x3E8) := by decide +kernel

/-! ### CAL_UNIT -/

/-- V-S4: two roundings, `d` = 5 and the fraction 3.0. -/
theorem test_calUnit_two_roundings :
    look .calUnit (idleWith (fun r => { r with fraction := 0x4008000000000000 }) (false :: bits 5) (good 20))
      (fun t => t.regs.unit) = some 0x3FFAAAAAAAAAAAAA := by decide +kernel

/-- V-E5: −0.0 is no valid fraction. -/
theorem test_calUnit_rejected :
    look .calUnit (idleWith (fun r => { r with fraction := 0x8000000000000000 }) [] []) 
      (fun t => (report t, t.obs.trace, t.obs.events)) =
      some ((0x10610, 0x8000000000000000, 0, 0, 0), [], [.rejected .invalidFraction 0x8000000000000000]) := by
  decide +kernel

/-! ### MEASURE -/

/-- S7: ZERO 1000, UNIT 1000.0 and a sample of 2000 read 1.0. -/
theorem test_measure_one :
    look .measure (idleWith (fun r => { r with zero := 1000, unit := 0x408F400000000000 }) (false :: bits 2000)
      (good 20)) (fun t => (t.regs.result, report t)) =
      some (0x3FF0000000000000, (0x10010, 0, 20, 1, 1000)) := by decide +kernel

/-- V-S25: a difference of 500 over 0x408F3FFFFFFFFFFF rounds up. -/
theorem test_measure_rounds :
    look .measure (idleWith (fun r => { r with unit := 0x408F3FFFFFFFFFFF }) (false :: bits 500) (good 20))
      (fun t => t.regs.result) = some 0x3FE0000000000001 := by decide +kernel

/-! ### RELEASE -/

/-- R190: the pins are released and STATE is 7. -/
theorem test_release :
    look .release (idle [] []) (fun t => (report t, t.sclk, t.latches.conf, t.obs.trace)) =
      some ((0x10070, 0, 0, 0, 0), .notDriven, false, [.releasePins]) := by decide +kernel

/-- V-E15: a second one is rejected. -/
theorem test_release_again :
    look .release (idleWith (fun r => { r with phase := .released }) [] []) (fun t => (report t, t.obs.trace)) =
      some ((0x10870, 8, 0, 0, 0), []) := by decide +kernel

/-! ### RD and WR -/

/-- The host reads STATUS of V-X1. -/
theorem test_rd_status : look (.rd 1) (idle [] []) (fun t => t.obs.reads) = some [(1, 0x10010)] := by decide

/-- V-H2: a reserved index reads 0. -/
theorem test_rd_reserved : look (.rd 15) (idle [] []) (fun t => t.obs.reads) = some [(15, 0)] := by decide

/-- R16: the registers after the write of a command's word, BUSY being 1 then, and after a read made next. -/
theorem test_observed :
    (look (.wr 0 1) (idle [] []) fun t => look (.rd 1) t fun u => u.obs.afterAccess.map statusWord) =
      some (some [0x10011, 0x10011]) := by decide +kernel

/-- V-H9: a write of CMD while BUSY is 1 sets OVR and nothing else. -/
theorem test_wr_cmd_busy :
    look (.wr 0 0xFF) State.reset (fun t => t.regs) = some { resetRegs with ovr := true } := by decide

/-- V-E13: illegal comes before released. -/
theorem test_wr_cmd_illegal :
    look (.wr 0 0xFF) (idleWith (fun r => { r with phase := .released }) [] []) (fun t => (t.regs.err, t.regs.errinfo)) =
      some (.illegalCommand, 0xFF) := by decide

/-! ### Numbers (V-S14, V-S16, V-S17, V-S24, V-S26) -/

theorem test_fp_extremes :
    unitOf 2000 0x10 = 0x7FF0000000000000 ∧ unitOf 0 0x10 = 0x7FF8000000000000 ∧
      unitOf 1 0x0010000000000000 = 0x7FD0000000000000 ∧ readingOf 0 0xC08F400000000000 = 0x8000000000000000 ∧
      readingOf 1048575 0x0000000000000001 = 0x7FF0000000000000 := by decide +kernel

/-! ### Steps -/

/-- The state some steps later, if none of them stops. -/
def stepped : Nat → State → Option State
  | 0, s => some s
  | n + 1, s =>
    match step s with
    | .next t => stepped n t
    | .fault _ => none
    | .refused _ => none

/-- R191: a reset between the micro-steps of an accepted RELEASE does not release the pins again; one before the first
of them releases them. -/
theorem test_one_teardown :
    ∀ turns ∈ [[Turn.engine, .assertReset], [.assertReset]],
      (stepped (turns.length + 1) { idle [] [] with
        agenda := .frame (encode (.wr 0 (commandWord .release))) :: turns }).map (fun t => t.obs.trace) =
        some [.releasePins] := by decide +kernel

/-- The first micro-step after reset configures SCLK (R241). -/
theorem test_step_reset :
    (match step State.reset with
      | .next t => some t.obs.trace
      | .fault _ => none
      | .refused _ => none) = some [.configure .sclk .output] := by decide

/-- R47: a turn that would read an unwritten latch faults. -/
theorem test_step_unwritten :
    (match step { idle [] [] with todo := [.showHigh] } with
      | .next _ => none
      | .fault f => some f
      | .refused _ => none) = some (.unwrittenLatch .h) := by decide

/-- Each row of the opcode table is the first instruction after reset. -/
theorem test_first_instruction :
    decodeTableWord 64 1 = some .pulse ∧ decodeTableWord 64 8 = some .release ∧ decodeTableWord 8 0x16 = some (.rd 11) ∧
      decodeTableWord 69 0x25 = some (.wr 2 1) := by decide

/-! ### Witnesses: for each statement with hypotheses, a state and operands that meet all of them, at the bounds of each
clause -/

/-- An idle state is one in which a command is accepted. -/
theorem accepting (f : Regs → Regs) (data : List Bool) (high : List Nat) (hb : (f (idle data high).regs).busy = false)
    (hp : (f (idle data high).regs).phase ≠ .released) : (idleWith f data high).Accepting := ⟨rfl, hb, hp⟩

theorem accepting_idle (data : List Bool) (high : List Nat) : (idle data high).Accepting :=
  ⟨rfl, rfl, by simp [idle]⟩

theorem witness_DecodeAfterEncode : Instr.wf (.rd 15) = true ∧ Instr.wf (.wr 0 0xFFFFFFFFFFFFFFFF) = true := by decide

theorem witness_ReadReturnsTheRegister :
    ∀ idx ∈ [0, 1, 2, 3, 4, 5, 6, 7, 8, 9, 10, 11, 12, 15], ∃ v, v = regRead (idle [] []).regs idx ∧
      (idx = 0 ∧ v = 0 ∨ idx = 1 ∧ v = statusWord (idle [] []).regs ∨ idx = 2 ∧ v = (idle [] []).regs.fraction ∨
        idx = 3 ∧ v = (idle [] []).regs.raw ∨ idx = 4 ∧ v = (idle [] []).regs.rawbits ∨
        idx = 5 ∧ v = (idle [] []).regs.zero ∨ idx = 6 ∧ v = (idle [] []).regs.unit ∨
        idx = 7 ∧ v = (idle [] []).regs.result ∨ idx = 8 ∧ v = (idle [] []).regs.errinfo ∨
        idx = 9 ∧ v = (idle [] []).regs.pulses ∨ idx = 10 ∧ v = (idle [] []).regs.polls ∨
        idx = 11 ∧ v = (idle [] []).regs.hightime ∨ 12 ≤ idx ∧ idx ≤ 15 ∧ v = 0) := by
  intro idx _
  refine ⟨_, rfl, ?_⟩
  revert idx
  decide

theorem witness_IndexOutsideThePortIsRefused : 16 ≤ 16 := by decide

theorem witness_WritesReachOnlyOvrAndFraction :
    (idle [] []).resetAsserted = false ∧ (8 : Word).getLsbD 3 = true ∧ (7 : Word).getLsbD 3 = false ∧ 3 ≤ 3 ∧
      15 ≤ 15 := by decide

theorem witness_CommandWhileBusyIsDropped :
    State.reset.resetAsserted = false ∧ State.reset.regs.busy = true := ⟨rfl, rfl⟩

/-- Each of the four reasons alone. -/
theorem witness_CommandAloneThatDoesNotStartIsItsWrite :
    Instr.IsCommand .measure ∧ (idle [] []).assertReset.resetAsserted = true ∧ State.reset.regs.busy = true ∧
      (idleWith (fun r => { r with phase := .released }) [] []).regs.phase = .released ∧
      ¬(idle [] []).Meets .measure :=
  ⟨by simp [Instr.IsCommand], rfl, rfl, rfl, fun h => absurd (h.2 rfl) (by decide)⟩

theorem witness_IllegalWordIsRejected :
    (idle [] []).resetAsserted = false ∧ (idle [] []).regs.busy = false ∧
      ∀ w ∈ [(0 : Word), 9, 0x104, 0xFFFFFFFFFFFFFFFF], w = 0 ∨ 9 ≤ w.toNat := by
  refine ⟨rfl, rfl, fun w hw => ?_⟩
  fin_cases hw <;> decide

theorem witness_ReleasedBlockRejectsEveryCommand :
    (idleWith (fun r => { r with phase := .released, fraction := 0 }) [] []).resetAsserted = false ∧
      (idleWith (fun r => { r with phase := .released, fraction := 0 }) [] []).regs.busy = false ∧
      (idleWith (fun r => { r with phase := .released, fraction := 0 }) [] []).regs.phase = .released ∧
      Instr.IsCommand .calUnit := ⟨rfl, rfl, rfl, by simp [Instr.IsCommand]⟩

theorem witness_InvalidFractionIsRejected :
    ∀ f ∈ [(0 : Word), 0x8000000000000000, 0x7FF0000000000000, 0xFFF0000000000000, 0x7FF8000000000000],
      (idleWith (fun r => { r with fraction := f }) [] []).Accepting ∧
        (f = 0 ∨ f = 0x8000000000000000 ∨ f.extractLsb' 52 11 = 0x7FF) := by
  intro f hf
  refine ⟨accepting _ _ _ rfl (by simp [idle]), ?_⟩
  fin_cases hf <;> decide

theorem witness_ZeroUnitIsRejected :
    ∀ u ∈ [(0 : Word), 0x8000000000000000],
      (idleWith (fun r => { r with unit := u }) [] []).Accepting ∧ (u = 0 ∨ u = 0x8000000000000000) := by
  intro u hu
  refine ⟨accepting _ _ _ rfl (by simp [idle]), ?_⟩
  fin_cases hu <;> decide

/-- The registers in which every command's precondition holds. -/
def ready (r : Regs) : Regs := { r with unit := 0x3FF0000000000000 }

theorem ready_meets (data : List Bool) (high : List Nat) (i : Instr) : (idleWith ready data high).Meets i :=
  ⟨fun _ => (by decide : fracOk 0x3FF0000000000000 = true), fun _ => (by decide : fpIsZero 0x3FF0000000000000 = false)⟩

theorem ready_accepting (data : List Bool) (high : List Nat) : (idleWith ready data high).Accepting :=
  accepting _ _ _ rfl (by simp [ready, idle])

theorem witness_AcceptedCommandStarts (i : Instr) (hi : i.IsCommand) :
    (idleWith ready [] []).Accepting ∧ i.IsCommand ∧ (idleWith ready [] []).Meets i :=
  ⟨ready_accepting _ _, hi, ready_meets _ _ i⟩

theorem witness_PulseInTheWindowCompletes :
    ∀ h ∈ [100, 20000], (idle [] [h]).Accepting ∧ ValidHigh ((idle [] [h]).env.highAt 0) := by
  intro h hh
  refine ⟨accepting_idle _ _, ?_⟩
  revert h
  decide +kernel

theorem witness_PulseOutsideTheWindowViolates :
    ∀ h ∈ [0, 99, 20001], (idle [] [h]).Accepting ∧
      (((idle [] [h]).env.highAt 0).toNat < 100 ∨ 20000 < ((idle [] [h]).env.highAt 0).toNat) := by
  intro h hh
  refine ⟨accepting_idle _ _, ?_⟩
  revert h
  decide +kernel

theorem witness_CalibrationPasses :
    (idle (List.replicate 4 true) (good 26)).Accepting ∧
      (∀ i < 26, ValidHigh ((idle (List.replicate 4 true) (good 26)).env.highAt i)) ∧
      ∀ j < 4, (idle (List.replicate 4 true) (good 26)).env.levelAt j = true :=
  ⟨accepting_idle _ _, by decide +kernel, by decide +kernel⟩

/-- The data of a calibration whose check `j` is the first to read 0. -/
def failing (j : Nat) : State := idle (List.replicate j true ++ [false]) (good 26)

theorem witness_CalibrationCheckFails :
    ∀ j ∈ [0, 3], (failing j).Accepting ∧ j < 4 ∧ (∀ i < 23 + j, ValidHigh ((failing j).env.highAt i)) ∧
      (∀ i < j, (failing j).env.levelAt i = true) ∧ (failing j).env.levelAt j = false := by
  intro j hj
  refine ⟨accepting_idle _ _, ?_⟩
  revert j
  decide +kernel

/-- A calibration whose pulse `n` is the first to violate, with high time `h`. -/
def aborting (n h : Nat) : State := idle (List.replicate 4 true) (good n ++ [h])

theorem witness_CalibrationAbortsOnViolation :
    ∀ x ∈ [(0, 99), (21, 20001), (22, 0), (25, 20001)], (aborting x.1 x.2).Accepting ∧ x.1 < 26 ∧
      (∀ i < x.1, ValidHigh ((aborting x.1 x.2).env.highAt i)) ∧ ¬ValidHigh ((aborting x.1 x.2).env.highAt x.1) ∧
      ∀ j < x.1 - 22, (aborting x.1 x.2).env.levelAt j = true := by
  intro x hx
  refine ⟨accepting_idle _ _, ?_⟩
  revert x
  decide +kernel

theorem witness_IsReadySamplesTheLine : (idle [] []).Accepting := accepting_idle _ _

theorem witness_ReleaseTearsDown : (idle [] []).Accepting := accepting_idle _ _

/-- An acquisition ready at attempt `q + 1`, its pulses measuring `high`, every command's precondition met. -/
def acquiring (q : Nat) (high : List Nat) : State := idleWith ready (List.replicate q true ++ [false]) high

theorem acquiring_ready : ∀ q ∈ [0, 170], q < 171 ∧ (acquiring q (good 20)).env.ReadyAfter q := by
  unfold Env.ReadyAfter
  decide +kernel

theorem acquiring_valid : ∀ q ∈ [0, 170], ∀ i < 20, ValidHigh ((acquiring q (good 20)).env.highAt i) := by
  decide +kernel

theorem witness_MeasureRawCompletes :
    ∀ q ∈ [0, 170], (acquiring q (good 20)).Accepting ∧ q < 171 ∧ (acquiring q (good 20)).env.ReadyAfter q ∧
      ∀ i < 20, ValidHigh ((acquiring q (good 20)).env.highAt i) :=
  fun q hq => ⟨ready_accepting _ _, (acquiring_ready q hq).1, (acquiring_ready q hq).2, acquiring_valid q hq⟩

theorem witness_CalZeroStoresTheSample :
    ∀ q ∈ [0, 170], (acquiring q (good 20)).Accepting ∧ q < 171 ∧ (acquiring q (good 20)).env.ReadyAfter q ∧
      ∀ i < 20, ValidHigh ((acquiring q (good 20)).env.highAt i) := witness_MeasureRawCompletes

theorem witness_CalUnitStoresTheScale :
    ∀ q ∈ [0, 170], (acquiring q (good 20)).Accepting ∧ (acquiring q (good 20)).Meets .calUnit ∧ q < 171 ∧
      (acquiring q (good 20)).env.ReadyAfter q ∧ ∀ i < 20, ValidHigh ((acquiring q (good 20)).env.highAt i) :=
  fun q hq => ⟨ready_accepting _ _, ready_meets _ _ _, (acquiring_ready q hq).1, (acquiring_ready q hq).2,
    acquiring_valid q hq⟩

theorem witness_MeasureStoresTheReading :
    ∀ q ∈ [0, 170], (acquiring q (good 20)).Accepting ∧ (acquiring q (good 20)).Meets .measure ∧ q < 171 ∧
      (acquiring q (good 20)).env.ReadyAfter q ∧ ∀ i < 20, ValidHigh ((acquiring q (good 20)).env.highAt i) :=
  fun q hq => ⟨ready_accepting _ _, ready_meets _ _ _, (acquiring_ready q hq).1, (acquiring_ready q hq).2,
    acquiring_valid q hq⟩

theorem witness_AcquisitionNeverReadyTimesOut (i : Instr) (hi : i.Acquires) :
    (idleWith ready (List.replicate 171 true) []).Accepting ∧ i.Acquires ∧
      (idleWith ready (List.replicate 171 true) []).Meets i ∧
      ∀ j < 171, (idleWith ready (List.replicate 171 true) []).env.levelAt j = true :=
  ⟨ready_accepting _ _, hi, ready_meets _ _ _, by decide +kernel⟩

theorem witness_AcquisitionAbortsOnViolation (i : Instr) (hi : i.Acquires) :
    ∀ x ∈ [(0, 0, 99), (170, 19, 20001)], (acquiring x.1 (good x.2.1 ++ [x.2.2])).Accepting ∧ i.Acquires ∧
      (acquiring x.1 (good x.2.1 ++ [x.2.2])).Meets i ∧ x.1 < 171 ∧
      (acquiring x.1 (good x.2.1 ++ [x.2.2])).env.ReadyAfter x.1 ∧ x.2.1 < 20 ∧
      (∀ j < x.2.1, ValidHigh ((acquiring x.1 (good x.2.1 ++ [x.2.2])).env.highAt j)) ∧
      ¬ValidHigh ((acquiring x.1 (good x.2.1 ++ [x.2.2])).env.highAt x.2.1) := by
  intro x hx
  refine ⟨ready_accepting _ _, hi, ready_meets _ _ _, ?_⟩
  unfold Env.ReadyAfter
  revert x
  decide +kernel

theorem witness_EveryCommandTerminates :
    (idle [] []).resetAsserted = false ∧ (idle [] []).regs.busy = false ∧ Instr.IsCommand .calibrate :=
  ⟨rfl, rfl, by simp [Instr.IsCommand]⟩

/-- For each clause, an instruction that does change what the clause speaks of. -/
theorem witness_ResultRegistersHaveTheirOwnWriters :
    look .isReady (idle [false] []) (fun t => decide (t.regs.ready = (idle [] []).regs.ready)) = some false ∧
      look .calibrate (failing 0) (fun t => decide (t.regs.cal = (failing 0).regs.cal)) = some false ∧
      look .calZero (idle (false :: bits 1) (good 20)) (fun t => decide (t.regs.zero = 0)) = some false ∧
      look .calUnit (idle (false :: bits 1) (good 20)) (fun t => decide (t.regs.unit = 0)) = some false ∧
      look .measure (idleWith ready (false :: bits 1) (good 20)) (fun t => decide (t.regs.result = 0)) = some false ∧
      look .measureRaw (idle (false :: bits 1) (good 20)) (fun t => decide (t.regs.raw = 0 ∧ t.regs.rawbits = 0)) =
        some false ∧
      look (.wr 2 5) (idle [] []) (fun t => decide (t.regs.fraction = (idle [] []).regs.fraction)) = some false := by
  decide +kernel

/-- V-P8: a passing calibration clears VIOL. -/
theorem witness_OnlyAPassingCalibrationClearsViol :
    look .calibrate (idleWith (fun r => { r with viol := true }) (List.replicate 4 true) (good 26))
      (fun t => t.regs.viol) = some false := by decide +kernel

theorem witness_AtMostOneEventPerCommand : ∃ t, exec .pulse (idle [] [99]) = .next t := ⟨_, rfl⟩

theorem witness_ReleasedStaysReleasedUntilReset :
    ∃ s t : State, s.regs.phase = .released ∧ s.regs.busy = false ∧ s.todo = [] ∧ s.agenda.head? ≠ some .assertReset ∧
      step s = .next t :=
  ⟨{ idleWith (fun r => { r with phase := .released }) [] [] with agenda := [.frame [4, 0, 0, 0, 0, 0, 0, 0]] }, _, rfl,
    rfl, rfl, by simp, rfl⟩

/-- A state in the middle of a command: a PULSE just accepted. -/
def started : State := (idle [] [1000]).start .pulse

theorem witness_HostAccessesAreObserved :
    (∃ t, exec (.rd 15) started = .next t) ∧ (∃ t, exec (.wr 0 0) started = .next t) ∧ Instr.IsCommand .pulse ∧
      (∃ t, exec .pulse (idle [] [1000]) = .next t) ∧ ∃ t, engineTurn started = .next t :=
  ⟨⟨_, rfl⟩, ⟨_, rfl⟩, by simp [Instr.IsCommand], ⟨_, rfl⟩, _, rfl⟩

theorem witness_HostReadsDoNotDisturbTheEngine :
    ∃ r t, exec (.rd 15) started = .next r ∧ engineTurn started = .next t := ⟨_, _, rfl, rfl⟩

theorem witness_FractionWriteDoesNotAffectTheRunningCommand :
    started.resetAsserted = false ∧ ∃ r t, exec (.wr 2 0) started = .next r ∧ engineTurn started = .next t :=
  ⟨rfl, _, _, rfl, rfl⟩

theorem witness_EngineTurnsReachTheCommandsResult (i : Instr) (hi : i.IsCommand) :
    (idleWith ready [] []).Accepting ∧ (idleWith ready [] []).agenda = [] ∧ i.IsCommand ∧
      (idleWith ready [] []).Meets i ∧ ∃ r, exec (.wr 0 (commandWord i)) (idleWith ready [] []) = .next r :=
  ⟨ready_accepting _ _, rfl, hi, ready_meets _ _ i, _, rfl⟩

theorem witness_AssertingResetTakesEffectAtOnce : ({ started with agenda := [.assertReset] } : State).agenda =
    .assertReset :: [] := rfl

theorem witness_HeldResetFreezesTheBlock :
    started.assertReset.resetAsserted = true ∧ 15 ≤ 15 ∧ Instr.IsCommand .pulse :=
  ⟨rfl, by decide, by simp [Instr.IsCommand]⟩

theorem witness_StartUpPasses :
    (idle (List.replicate 4 true) (good 26)).agenda = [] ∧
      (∀ i < 26, ValidHigh ((idle (List.replicate 4 true) (good 26)).env.highAt i)) ∧
      ∀ j < 4, (idle (List.replicate 4 true) (good 26)).env.levelAt j = true :=
  ⟨rfl, by decide +kernel, by decide +kernel⟩

theorem witness_StartUpAlwaysEnds : started.agenda = [] := rfl

theorem witness_step_started : ∃ t, step started = .next t := ⟨_, rfl⟩

theorem witness_StepKeepsSampleRanges : started.SampleInv ∧ ∃ t, step started = .next t :=
  ⟨by unfold State.SampleInv; decide +kernel, witness_step_started⟩

theorem witness_StepKeepsEngineShape : started.EngineInv ∧ ∃ t, step started = .next t :=
  ⟨⟨fun h => absurd h (by simp [started]), fun _ => ⟨.complete, rfl, rfl⟩⟩, witness_step_started⟩

theorem witness_StepKeepsClockLowOutsidePulses : started.ClockInv ∧ ∃ t, step started = .next t :=
  ⟨by unfold State.ClockInv; decide +kernel, witness_step_started⟩

theorem witness_StepNeverReadsAnUnwrittenLatch : started.LatchInv ∧ ∃ t, step started = .next t :=
  ⟨by unfold State.LatchInv; decide +kernel, witness_step_started⟩

/-- Two readings made, the second of them the greater, and a command running. -/
def timed : State :=
  { started with
    obs := { started.obs with trace := [.now 3, .setClk true, .now 5] }
    env := { started.env with lastNow := 5 } }

theorem witness_StepKeepsTimeMonotone : timed.TimeInv ∧ ∃ t, step timed = .next t :=
  ⟨⟨by decide, by simp [timed, nowReadings]⟩, _, rfl⟩

/-- A RELEASE just accepted, and one whose teardown has just been made. -/
def releasing : State := (idle [] []).start .release

theorem witness_StepKeepsOneTeardown :
    (releasing.TeardownInv ∧ ∃ t, step releasing = .next t) ∧
      releasing.microStep.TeardownInv ∧ ∃ t, step releasing.microStep = .next t := by
  refine ⟨⟨?_, _, rfl⟩, ?_, _, rfl⟩ <;> unfold State.TeardownInv State.Constructing <;> decide +kernel

theorem witness_StepRunsTheDecodedInstruction :
    ({ idle [] [] with agenda := [.frame [8, 0, 0, 0, 0, 0, 0, 0]] } : State).agenda =
        .frame [8, 0, 0, 0, 0, 0, 0, 0] :: [] ∧
      decode [8, 0, 0, 0, 0, 0, 0, 0] = .ok .release := by decide

theorem witness_StepAnswersIllegalWords :
    (∀ bytes : List Byte, ({ idle [] [] with agenda := [.frame bytes] } : State).agenda = .frame bytes :: []) ∧
      decode [9, 0, 0, 0, 0, 0, 0, 0] = .error (.illegalCommand 9) ∧ decode [] = .error (.notATransaction 0) ∧
      decode [0, 0, 0, 0, 0, 0, 0, 0, 0x20] = .error .reservedBits := ⟨fun _ => rfl, by decide, by decide, by decide⟩

theorem witness_PresentedWordRunsNext : decodeTableWord 64 1 = some .pulse ∧ decodeTableWord 69 0 = some (.rd 0) := by
  decide

theorem witness_Decode20IsTwosComplement : (-524288 : Int) ≤ -524288 ∧ (524287 : Int) ≤ 524287 := by decide

theorem witness_SerialBitsArriveMostSignificantFirst : 1 ≤ 1 ∧ 20 ≤ 20 := by decide

theorem witness_IntegersConvertExactly : (9007199254740991 : Int).natAbs < 2 ^ 53 ∧ (-1 : Int).natAbs < 2 ^ 53 := by decide

/-- Three units of the least subnormal over 2.0: a tie between one unit and two, and the even one is the quotient. The last
clause is about another number that is as near: one unit. -/
theorem witness_DivisionIsCorrectlyRounded :
    fpIsFinite 3 = true ∧ fpIsFinite 0x4000000000000000 = true ∧ fpIsZero 3 = false ∧
      fpIsZero 0x4000000000000000 = false ∧ fpIsFinite 1 = true ∧ fpIsFinite (fpDiv 3 0x4000000000000000) = true ∧
      fpUnits 1 ≠ fpUnits (fpDiv 3 0x4000000000000000) ∧
      ((fpUnits 3 * 2 ^ 1075 : Int) - fpUnits (fpDiv 3 0x4000000000000000) * fpUnits 0x4000000000000000).natAbs =
        ((fpUnits 3 * 2 ^ 1075 : Int) - fpUnits 1 * fpUnits 0x4000000000000000).natAbs := by decide +kernel

/-- The largest finite number over the least one is an infinity. -/
theorem witness_division_overflow :
    fpIsFinite 0x7FEFFFFFFFFFFFFF = true ∧ fpIsZero 0x7FEFFFFFFFFFFFFF = false ∧ fpIsFinite 1 = true ∧
      fpIsZero 1 = false ∧ fpIsFinite (fpDiv 0x7FEFFFFFFFFFFFFF 1) = false := by decide +kernel

/-- The same tie as a product with 0.5. -/
theorem witness_MultiplicationIsCorrectlyRounded :
    fpIsFinite 3 = true ∧ fpIsFinite 0x3FE0000000000000 = true ∧ fpIsZero 3 = false ∧
      fpIsZero 0x3FE0000000000000 = false ∧ fpIsFinite 1 = true ∧ fpIsFinite (fpMul 3 0x3FE0000000000000) = true ∧
      fpUnits 1 ≠ fpUnits (fpMul 3 0x3FE0000000000000) ∧
      ((fpUnits 3 * fpUnits 0x3FE0000000000000 : Int) - fpUnits (fpMul 3 0x3FE0000000000000) * 2 ^ 1075).natAbs =
        ((fpUnits 3 * fpUnits 0x3FE0000000000000 : Int) - fpUnits 1 * 2 ^ 1075).natAbs := by decide +kernel

theorem witness_multiplication_overflow :
    fpIsFinite 0x7FEFFFFFFFFFFFFF = true ∧ fpIsZero 0x7FEFFFFFFFFFFFFF = false ∧ fpIsFinite 0x4008000000000000 = true ∧
      fpIsZero 0x4008000000000000 = false ∧ fpIsFinite (fpMul 0x7FEFFFFFFFFFFFFF 0x4008000000000000) = false := by
  decide +kernel

theorem witness_ReadingsWithExceptionalOperands :
    fpIsNaN 0x8000000000000001 = false ∧ fpIsZero 0x8000000000000001 = false ∧ fpIsInf 0xFFF0000000000000 = true ∧
      (-1048575 : Int) ≠ 0 ∧ (-1048575 : Int).natAbs < 2 ^ 53 ∧ fpIsNaN 0x7FF0000000000001 = true := by decide

theorem witness_OnlyTheCanonicalNaNIsStored :
    fpIsNaN (unitOf 0 0x10) = true ∧ fpIsNaN (readingOf 5 0x7FF0000000000001) = true := by decide +kernel

theorem witness_BridgeIsLittleEndian : 15 < 16 ∧ 7 < 8 := by decide

end Sys2Proof.Tests
end

section
/-! The binary64 primitives (R17): quotient and product of nonzero finite numbers and the conversion of an integer are
each one rounding, so `round_spec` decides what they give. -/

namespace Sys2Proof.Machine

/-- `fp_div` of nonzero finite numbers is one rounding of the quotient of their magnitudes (R151). -/
theorem fpDiv_finite (a b : Word) (ha : fpIsFinite a = true) (hb : fpIsFinite b = true) (ha0 : fpIsZero a = false)
    (hb0 : fpIsZero b = false) :
    fpDiv a b = fpPack (fpSign a != fpSign b) (roundMagnitude (fpUnits a * 2 ^ 1074) (fpUnits b)) := by
  simp [fpDiv, fpIsFinite_spec a ha, fpIsFinite_spec b hb, ha0, hb0, -Nat.reducePow]

/-- `fp_mul` of nonzero finite numbers is one rounding of the product of their magnitudes (R151). -/
theorem fpMul_finite (a b : Word) (ha : fpIsFinite a = true) (hb : fpIsFinite b = true) (ha0 : fpIsZero a = false)
    (hb0 : fpIsZero b = false) :
    fpMul a b = fpPack (fpSign a != fpSign b) (roundMagnitude (fpUnits a * fpUnits b) (2 ^ 1076)) := by
  simp [fpMul, fpIsFinite_spec a ha, fpIsFinite_spec b hb, ha0, hb0, -Nat.reducePow]

/-- A factor common to the fraction's numerator and denominator is a factor of its distance. -/
theorem distance_mul_left (k n d v : Nat) : distance (k * n) (k * d) v = k * distance n d v := by
  unfold distance
  have : ((k * n : Nat) : Int) - v * (k * d : Nat) = k * ((n : Int) - v * d) := by push_cast; ring
  rw [this, Int.natAbs_mul, Int.natAbs_natCast]

/-- Settles O53: both sides of `round_spec` for the quotient, in units of 2^−1075. -/
theorem divisionIsCorrectlyRounded : Obligations.DivisionIsCorrectlyRounded := by
  intro a b ha hb ha0 hb0
  have hd := Nat.pos_of_ne_zero (fpUnits_ne_zero b hb0)
  obtain ⟨hs, hn, ho, hr⟩ := round_spec (fpSign a != fpSign b) (fpUnits a * 2 ^ 1074) (fpUnits b) hd
  rw [← fpDiv_finite a b ha hb ha0 hb0] at hs hn ho hr
  have hdist : ∀ v : Nat, ((fpUnits a * 2 ^ 1075 : Int) - v * fpUnits b).natAbs =
      distance (2 * (fpUnits a * 2 ^ 1074)) (fpUnits b) v := fun v => by
    rw [distance, Nat.mul_left_comm, ← two_pow_succ, Nat.cast_mul, Nat.cast_pow, Nat.cast_ofNat]
  simp only [hdist]
  refine ⟨hs, hn, ?_, fun c _ => hr c⟩
  rw [ho, two_pow_succ 2044, two_pow_succ 1074, Nat.mul_left_comm _ 2, Nat.mul_left_comm _ 2, Nat.mul_left_comm _ 2]
  exact (Nat.mul_le_mul_left_iff (by decide)).symm

/-- Settles O54: both sides of `round_spec` for the product, in units of 2^−1075. -/
theorem multiplicationIsCorrectlyRounded : Obligations.MultiplicationIsCorrectlyRounded := by
  intro a b ha hb ha0 hb0
  have hd : 0 < 2 ^ 1076 := pow_pos (by decide) 1076
  obtain ⟨hs, hn, ho, hr⟩ := round_spec (fpSign a != fpSign b) (fpUnits a * fpUnits b) (2 ^ 1076) hd
  rw [← fpMul_finite a b ha hb ha0 hb0] at hs hn ho hr
  have hdist : ∀ v : Nat, distance (2 * (fpUnits a * fpUnits b)) (2 ^ 1076) v =
      2 * ((fpUnits a * fpUnits b : Int) - v * 2 ^ 1075).natAbs := fun v => by
    rw [two_pow_succ 1075, distance_mul_left, distance, Nat.cast_mul, Nat.cast_pow, Nat.cast_ofNat]
  simp only [hdist] at hr
  refine ⟨hs, hn, ?_, fun c _ hf => ?_⟩
  · rw [ho, two_pow_succ 1075, two_pow_succ 2044]
    generalize 2 ^ 1075 = x
    generalize 2 ^ 2044 = y
    rw [show 2 * x * ((2 ^ 54 - 1) * y) = (2 ^ 54 - 1) * (2 * y) * x by ring]
  · obtain ⟨h1, h2⟩ := hr c hf
    exact ⟨by omega, fun hne he => h2 hne (by omega)⟩

/-- A whole number that is a multiple of the denominator is its own rounding. -/
theorem roundHalfEven_mul (k d : Nat) (hd : 0 < d) : roundHalfEven (k * d) d = k := by
  rw [roundHalfEven, Nat.mul_mod_left, Nat.mul_div_cancel k hd, if_neg (by omega)]

/-- A number of units of 2^−1074 below the overflow bound that is a multiple of its last place kept is converted
exactly. -/
theorem round_exact (s : Bool) (n : Nat) (hn : n < (2 ^ 54 - 1) * 2 ^ 2044) (hq : 2 ^ (Nat.log2 n - 52) ∣ n) :
    fpIsFinite (fpPack s (roundMagnitude n 1)) = true ∧ fpUnits (fpPack s (roundMagnitude n 1)) = 2 * n := by
  obtain ⟨-, -, ho, -⟩ := round_spec s n 1 (by decide)
  rw [Nat.one_mul, ← not_iff_not, Bool.not_eq_false, Nat.not_le] at ho
  refine ⟨ho.mpr hn, ?_⟩
  have hover := rounded_overflow_at n 1 (Nat.log2 n - 52) 2044 (by decide) (by rw [Nat.div_one])
  have hrange := significand_range n 1 (Nat.log2 n - 52) (by decide) (by rw [Nat.div_one])
  have hr : roundMagnitude n 1 = min ((Nat.log2 n - 52) * 2 ^ 52 + roundHalfEven n (1 * 2 ^ (Nat.log2 n - 52)))
      (2047 * 2 ^ 52) := by rw [roundMagnitude, Nat.div_one]
  generalize Nat.log2 n - 52 = q at *
  obtain ⟨k, rfl⟩ := hq
  have hk : roundHalfEven (2 ^ q * k) (1 * 2 ^ q) = k := by
    rw [Nat.one_mul, Nat.mul_comm, roundHalfEven_mul k _ (Nat.pow_pos (by decide))]
  rw [hk] at hover hrange hr
  have hmin : roundMagnitude (2 ^ q * k) 1 = q * 2 ^ 52 + k := by
    rw [hr, Nat.min_eq_left]
    omega
  rw [fpUnits_pack s _ (by omega), hmin, magnitudeValue_make q k hrange.1 hrange.2, Nat.mul_comm k]

/-- An integer below 2^53 times a power of two has no bit below the last place kept of its conversion. -/
theorem lastPlace_dvd (m e : Nat) (hm : m < 2 ^ 53) : 2 ^ (Nat.log2 (m * 2 ^ e) - 52) ∣ m * 2 ^ e := by
  refine Dvd.dvd.mul_left (Nat.pow_dvd_pow 2 ?_) m
  by_contra hlt
  have hge := (quotient_range (m * 2 ^ e) _ rfl).2.resolve_left (by omega)
  have hup : m * 2 ^ e < 2 ^ (53 + e) := by
    rw [Nat.pow_add]
    exact Nat.mul_lt_mul_of_pos_right hm (Nat.pow_pos (by decide))
  have := (Nat.pow_lt_pow_iff_right (a := 2) (by decide)).mp (Nat.lt_of_le_of_lt hge hup)
  omega

/-- Every conversion of an integer is one rounding, that of 0 included. -/
theorem fpFromInt_eq (n : Int) :
    fpFromInt n = fpPack (decide (n < 0)) (roundMagnitude (n.natAbs * 2 ^ 1074) 1) := by
  unfold fpFromInt
  split
  · next h =>
    rw [h, Int.natAbs_zero, Nat.zero_mul]
    decide
  · rfl

/-- Settles O52: the one rounding of the conversion is exact. -/
theorem integersConvertExactly : Obligations.IntegersConvertExactly := by
  intro n hn
  have hbound : n.natAbs * 2 ^ 1074 < (2 ^ 54 - 1) * 2 ^ 2044 :=
    Nat.mul_lt_mul_of_lt_of_le (by omega) (pow_le_pow_right₀ (by decide) (by decide)) (pow_pos (by decide) 2044)
  obtain ⟨hf, hu⟩ := round_exact (decide (n < 0)) _ hbound (lastPlace_dvd _ _ hn)
  obtain ⟨hs, -⟩ := round_spec (decide (n < 0)) (n.natAbs * 2 ^ 1074) 1 (by decide)
  rw [fpFromInt_eq]
  refine ⟨hf, ?_, hs⟩
  rw [hu, two_pow_succ 1074, Nat.mul_left_comm]

end Sys2Proof.Machine
end

section
/-! The record of host accesses (R16): a read and a write observe the registers once, a micro-step never. -/

namespace Sys2Proof.Machine

/-- No micro-step observes a host access (R16). -/
theorem State.runOp_afterAccess (s : State) (op : MicroOp) :
    (s.runOp op).obs.afterAccess = s.obs.afterAccess := by
  cases op
  case validate => simp only [State.runOp, State.validate]; split_ifs <;> rfl
  case checkCal => simp only [State.runOp, State.checkCal]; split_ifs <;> rfl
  case pollTest => simp only [State.runOp, State.pollTest]; split_ifs <;> rfl
  all_goals simp [State.runOp]

@[simp] theorem State.microStep_afterAccess (s : State) : s.microStep.obs.afterAccess = s.obs.afterAccess :=
  State.microStep_invariant (fun t => t.obs.afterAccess = s.obs.afterAccess)
    (fun _ op _ _ h => (State.runOp_afterAccess _ op).trans h) s rfl

@[simp] theorem State.runToEnd_afterAccess (n : Nat) (s : State) :
    (s.runToEnd n).obs.afterAccess = s.obs.afterAccess :=
  State.runToEnd_invariant (fun t => t.obs.afterAccess = s.obs.afterAccess)
    (fun t h => t.microStep_afterAccess.trans h) n s rfl

/-- The effect of a write on the registers is not yet its observation. -/
@[simp] theorem State.regWrite_afterAccess (s : State) (idx : Nat) (w : Word) :
    (s.regWrite idx w).obs.afterAccess = s.obs.afterAccess := by
  rcases s.regWrite_cases idx w with h | ⟨-, -, h⟩ | ⟨b, h⟩ | ⟨-, h⟩ <;> rw [h]
  rcases s.accept_shapes w with ⟨b, h⟩ | ⟨c, info, -, h⟩ | ⟨i, -, -, -, -, h⟩ <;> rw [h] <;> simp

/-- A write observes the registers as it leaves them (R16). -/
theorem State.hostWrite_afterAccess (s : State) (idx : Nat) (w : Word) :
    (s.hostWrite idx w).obs.afterAccess = s.obs.afterAccess ++ [(s.hostWrite idx w).regs] := by
  simp

/-- A command alone observes the registers as the write of its word leaves them (log entry 8). -/
theorem State.runCommand_afterAccess (s : State) (w : Word) :
    (s.runCommand w).obs.afterAccess = s.obs.afterAccess ++ [(s.hostWrite 0 w).regs] := by
  rw [← State.hostWrite_afterAccess, State.runCommand]
  split
  · rfl
  · rw [State.runToEnd_afterAccess]

/-- The next states of an engine turn: the same, or a micro-step later. -/
theorem engineTurn_cases (s t : State) (h : engineTurn s = .next t) : t = s ∨ t = s.microStep := by
  unfold engineTurn at h
  split at h
  · cases h
    exact .inl rfl
  · split at h
    · cases h
      exact .inl rfl
    · split at h <;> cases h
      exact .inr rfl

/-- Settles O59, one access at a time. -/
theorem hostAccessesAreObserved : Obligations.HostAccessesAreObserved := by
  intro s t
  refine ⟨fun idx h => ?_, fun idx w h => ?_, fun i hi h => ?_, fun h => ?_⟩
  · rcases exec_cases s t _ h with ⟨hc, -⟩ | ⟨_, ⟨⟩, rfl⟩ | ⟨_, _, ⟨⟩, -⟩
    · simp [Instr.IsCommand] at hc
    · simp
  · rcases exec_cases s t _ h with ⟨hc, -⟩ | ⟨_, ⟨⟩, -⟩ | ⟨_, _, ⟨⟩, rfl⟩
    · simp [Instr.IsCommand] at hc
    · exact s.hostWrite_afterAccess idx w
  · rcases exec_cases s t i h with ⟨-, rfl⟩ | ⟨_, rfl, -⟩ | ⟨_, _, rfl, -⟩
    · exact ⟨s.hostWrite 0 (commandWord i), rfl, s.runCommand_afterAccess _⟩
    · simp [Instr.IsCommand] at hi
    · simp [Instr.IsCommand] at hi
  · rcases engineTurn_cases s t h with rfl | rfl
    · rfl
    · exact s.microStep_afterAccess

end Sys2Proof.Machine
end

section
/-! What one micro-step can do, said once: the tests that may end a sequence; and how a property of every line of a loop
is one of the loop written out. -/

namespace Sys2Proof.Machine

/-- A micro-step that tests a latch: it goes on, ends its sequence, or has the ready poll try again (R101, R121, R128). -/
def MicroOp.isTest : MicroOp → Bool
  | .validate => true
  | .checkCal => true
  | .pollTest => true
  | _ => false

/-- A test that neither ends its sequence nor polls again does nothing, so only the other micro-steps are left to look
at one by one. -/
theorem State.runOp_of_tests (P : State → Prop) (s : State) (op : MicroOp) (hgo : P s)
    (hend : ∀ code info, P (s.terminate code info))
    (hpoll : P { s with todo := .sleep :: (pollOps ++ s.todo) })
    (hother : op.isTest = false → P (s.runOp op)) : P (s.runOp op) := by
  cases op
  case validate =>
    simp only [State.runOp, State.validate, State.raise_eq]
    split_ifs
    · exact hend _ _
    · exact hend _ _
    · exact hgo
  case checkCal =>
    simp only [State.runOp, State.checkCal, State.raise_eq]
    split_ifs
    · exact hgo
    · exact hend _ _
  case pollTest =>
    simp only [State.runOp, State.pollTest, State.raise_eq]
    split_ifs
    · exact hend _ _
    · exact hpoll
    · exact hgo
  all_goals exact hother rfl

/-- What holds of every line of a loop's body holds of every line of the loop written out. -/
theorem forall_mem_loopOps (p : MicroOp → Prop) (body : Nat → List MicroOp) (h : ∀ k, ∀ op ∈ body k, p op)
    (n start : Nat) : ∀ op ∈ loopOps body n start, p op := by
  induction n generalizing start with
  | zero => simp [loopOps]
  | succ n ih =>
    simp only [loopOps, List.forall_mem_append]
    exact ⟨h start, ih _⟩

end Sys2Proof.Machine
end

section
/-! RAW, RAWBITS and ZERO (R34 to R36): only a published sample and a CAL_ZERO write them, each within its range. -/

namespace Sys2Proof.Machine

/-- ZERO after CAL_ZERO of a decoded pattern (R130, R160) has the pattern's two's complement value. -/
theorem toInt_zeroOf_decode20 (v : Sample) : (zeroOf (decode20 v)).toInt = v.toInt := by
  rw [zeroOf, decode20_eq_toInt, BitVec.ofInt_toInt, BitVec.toInt_signExtend_of_le (by decide)]

/-- RAW and RAWBITS written together from one pattern (R35, R131). -/
theorem State.SampleInv.writeRaw {s : State} (hs : s.SampleInv) : (s.runOp .writeRaw).SampleInv := by
  obtain ⟨-, -, hzero⟩ := hs
  have hback : (s.latches.acc.value.setWidth 64).setWidth Config.nBits = s.latches.acc.value := by
    rw [BitVec.setWidth_setWidth_of_le _ (by decide), BitVec.setWidth_eq]
  refine ⟨?_, congrArg (BitVec.signExtend 64) hback.symm, hzero⟩
  simp only [State.runOp, BitVec.toNat_setWidth]
  omega

/-- ZERO written from a decoded pattern (R160). -/
theorem State.SampleInv.completeZero {s : State} (hs : s.SampleInv) : (s.runOp .completeZero).SampleInv := by
  obtain ⟨hbits, hraw, -⟩ := hs
  refine ⟨hbits, hraw, ?_⟩
  change Config.rawMin ≤ (zeroOf _).toInt ∧ (zeroOf _).toInt ≤ Config.rawMax
  rw [toInt_zeroOf_decode20]
  exact sample_toInt_range _

theorem State.SampleInv.runOp {s : State} (op : MicroOp) (hs : s.SampleInv) : (s.runOp op).SampleInv := by
  refine State.runOp_of_tests State.SampleInv s op hs (fun _ _ => hs) hs fun _ => ?_
  cases op
  case writeRaw => exact hs.writeRaw
  case completeZero => exact hs.completeZero
  case validate | checkCal | pollTest => contradiction
  all_goals exact hs

theorem State.SampleInv.microStep {s : State} : s.SampleInv → s.microStep.SampleInv :=
  State.microStep_invariant State.SampleInv (fun _ op _ _ hs => State.SampleInv.runOp op hs) s

/-- The registers at reset (R54) are in range. -/
theorem State.sampleInv_of_resetRegs {s : State} (h : s.regs = resetRegs) : s.SampleInv := by
  rw [State.SampleInv, h]
  decide

/-- Settles O41: no other piece of a step writes the three registers. -/
theorem stepKeepsSampleRanges : Obligations.StepKeepsSampleRanges := by
  refine step_invariant State.SampleInv ?agenda ?read ?observe ?ovr ?frac ?reject ?start ?micro ?assert ?deassert
  case micro => exact fun _ => State.SampleInv.microStep
  case assert => exact fun s _ => State.sampleInv_of_resetRegs (by rw [State.assertReset_eq])
  all_goals intros; assumption

end Sys2Proof.Machine
end

section
/-! The engine's shape (R22, R26): each sequence ends by a micro-step that completes, and an end leaves BUSY 0. -/

namespace Sys2Proof.Machine

/-- A sequence whose last micro-step ends it (R212). -/
def EndsByCompleting (todo : List MicroOp) : Prop := ∃ op, todo.getLast? = some op ∧ op.completes = true

theorem EndsByCompleting.append_left {todo : List MicroOp} (h : EndsByCompleting todo) (before : List MicroOp) :
    EndsByCompleting (before ++ todo) := by
  obtain ⟨op, hl, hc⟩ := h
  exact ⟨op, by simp [List.getLast?_append, hl], hc⟩

theorem endsByCompleting_singleton {op : MicroOp} (h : op.completes = true) : EndsByCompleting [op] := ⟨op, rfl, h⟩

/-- What is left after a line that does not complete. -/
theorem EndsByCompleting.tail {op : MicroOp} {rest : List MicroOp} (h : EndsByCompleting (op :: rest))
    (hop : op.completes = false) : EndsByCompleting rest := by
  obtain ⟨last, hl, hc⟩ := h
  cases rest with
  | nil =>
    rw [List.getLast?_singleton, Option.some_inj] at hl
    rw [← hl, hop] at hc
    cases hc
  | cons next rest => exact ⟨last, by rwa [List.getLast?_cons_cons] at hl, hc⟩

theorem endsByCompleting_calSeq : EndsByCompleting calSeq :=
  ((endsByCompleting_singleton (op := .complete) rfl).append_left (loopOps checkOps Config.nCalCheck 0)).append_left
    (.setPhase .calibrating :: loopOps discardOps Config.nCalDiscard 1)

theorem endsByCompleting_acquireThen {op : MicroOp} (h : op.completes = true) : EndsByCompleting (acquireThen [op]) :=
  ((endsByCompleting_singleton h).append_left [_, _]).append_left _ |>.append_left _

/-- Every command's sequence ends by completing (R212). -/
theorem endsByCompleting_programOf (i : Instr) (hi : i.IsCommand) : EndsByCompleting (programOf i) := by
  have hcomplete : EndsByCompleting [.complete] := endsByCompleting_singleton rfl
  rcases hi with rfl | rfl | rfl | rfl | rfl | rfl | rfl | rfl
  · exact hcomplete.append_left (_ :: pulseOps)
  · exact endsByCompleting_calSeq
  · exact (endsByCompleting_singleton (op := .completeReady) rfl).append_left [_, _]
  · exact endsByCompleting_acquireThen rfl
  · exact endsByCompleting_acquireThen rfl
  · exact endsByCompleting_acquireThen rfl
  · exact endsByCompleting_acquireThen rfl
  · exact hcomplete.append_left [_]

theorem endsByCompleting_startUpProgram : EndsByCompleting startUpProgram :=
  endsByCompleting_calSeq.append_left [_, _, _, _, _]

theorem State.engineInv_of_busy {s : State} (hb : s.regs.busy = true) (ht : EndsByCompleting s.todo) : s.EngineInv :=
  ⟨fun h => by simp [hb] at h, fun _ => ht⟩

/-- The end of a sequence leaves the engine IDLE or RELEASED (R212). -/
theorem State.terminate_engineInv (s : State) (code : ResultCode) (info : Word) :
    (s.terminate code info).EngineInv := by
  refine ⟨fun _ => ⟨rfl, ?_⟩, fun h => by simp at h⟩
  simp only [State.terminate_regs, terminateRegs]
  split
  · exact .inr rfl
  · exact .inl rfl

/-- A micro-step that neither tests nor completes leaves BUSY and the rest of its sequence. -/
theorem State.runOp_goesOn (s : State) (op : MicroOp) (ht : op.isTest = false) (hc : op.completes = false) :
    (s.runOp op).regs.busy = s.regs.busy ∧ (s.runOp op).todo = s.todo := by
  cases op <;> simp_all [State.runOp, MicroOp.isTest, MicroOp.completes]

theorem State.runOp_completes (s : State) (op : MicroOp) (h : op.completes = true) : (s.runOp op).EngineInv := by
  cases op
  case complete | completeReady | completeZero | completeUnit | completeMeasure => exact State.terminate_engineInv ..
  all_goals cases h

theorem State.EngineInv.microStep {s : State} : s.EngineInv → s.microStep.EngineInv := by
  refine State.microStep_invariant State.EngineInv (fun s op rest e hs => ?_) s
  have hb : s.regs.busy = true := by
    by_contra hb
    rw [(hs.1 (by simpa using hb)).1] at e
    cases e
  have hends : EndsByCompleting (op :: rest) := e ▸ hs.2 hb
  cases hc : op.completes with
  | true => exact State.runOp_completes _ op hc
  | false =>
    have hrest := hends.tail hc
    refine State.runOp_of_tests State.EngineInv _ op ?_ (fun _ _ => State.terminate_engineInv ..) ?_ fun ht => ?_
    · exact State.engineInv_of_busy hb hrest
    · exact State.engineInv_of_busy hb (hrest.append_left (.sleep :: pollOps))
    · obtain ⟨hbusy, htodo⟩ := State.runOp_goesOn { s with todo := rest } op ht hc
      exact State.engineInv_of_busy (hbusy.trans hb) (htodo ▸ hrest)

/-- Settles O42: a start puts a whole sequence, the rejections and the host's accesses leave what there is. -/
theorem stepKeepsEngineShape : Obligations.StepKeepsEngineShape := by
  refine step_invariant State.EngineInv ?agenda ?read ?observe ?ovr ?frac ?reject ?start ?micro ?assert ?deassert
  case micro => exact fun _ => State.EngineInv.microStep
  case start => exact fun s i hi _ _ _ => State.engineInv_of_busy rfl (endsByCompleting_programOf i hi)
  case assert => exact fun s _ => s.assertReset_eq ▸ State.engineInv_of_busy rfl endsByCompleting_startUpProgram
  all_goals intros; assumption

end Sys2Proof.Machine
end

section
/-! SCLK (R51): in every sequence each rise is followed at once by its fall. -/

namespace Sys2Proof.Machine

theorem clkPaired_tail {op : MicroOp} {rest : List MicroOp} (h : clkPaired (op :: rest) = true) :
    clkPaired rest = true := by
  unfold clkPaired at h
  split at h <;> simp_all

/-- Of a paired sequence, the micro-step after a rise is its fall. -/
theorem head?_of_clkPaired {rest : List MicroOp} (h : clkPaired (.driveClk true :: rest) = true) :
    rest.head? = some (.driveClk false) := by
  simp only [clkPaired, Bool.and_eq_true, decide_eq_true_eq] at h
  exact h.1

theorem clkPaired_append (a b : List MicroOp) (ha : clkPaired a = true) (hb : clkPaired b = true) :
    clkPaired (a ++ b) = true := by
  induction a with
  | nil => exact hb
  | cons op rest ih =>
    have hrest := ih (clkPaired_tail ha)
    by_cases h : op = .driveClk true
    · subst h
      simp [clkPaired, hrest, List.head?_append, head?_of_clkPaired ha]
    · cases op <;> simp_all [clkPaired]

theorem clkPaired_loopOps (body : Nat → List MicroOp) (h : ∀ k, clkPaired (body k) = true) (n start : Nat) :
    clkPaired (loopOps body n start) = true := by
  induction n generalizing start with
  | zero => rfl
  | succ n ih => exact clkPaired_append _ _ (h start) (ih _)

theorem clkPaired_calSeq : clkPaired calSeq = true :=
  clkPaired_append _ _ (clkPaired_loopOps _ (fun _ => rfl) _ _)
    (clkPaired_append _ _ (clkPaired_loopOps _ (fun _ => rfl) _ _) rfl)

theorem clkPaired_acquireThen {rest : List MicroOp} (h : clkPaired rest = true) :
    clkPaired (acquireThen rest) = true :=
  clkPaired_append waitReady _ rfl (clkPaired_append readSample _ (clkPaired_loopOps _ (fun _ => rfl) _ _) h)

/-- In every command each rise is followed by its fall (R101). -/
theorem clkPaired_programOf (i : Instr) : clkPaired (programOf i) = true := by
  cases i with
  | calibrate => exact clkPaired_calSeq
  | measureRaw => exact clkPaired_acquireThen rfl
  | calZero => exact clkPaired_acquireThen rfl
  | calUnit => exact clkPaired_acquireThen rfl
  | measure => exact clkPaired_acquireThen rfl
  | pulse => rfl
  | isReady => rfl
  | release => rfl
  | rd => rfl
  | wr => rfl

/-- Only the edges of a pulse move SCLK, and the teardown lets go of it. -/
theorem State.runOp_sclk (s : State) (op : MicroOp) (h : ∀ b, op ≠ .driveClk b) :
    (s.runOp op).sclk = s.sclk ∨ (s.runOp op).sclk = .notDriven := by
  refine State.runOp_of_tests (fun t => t.sclk = s.sclk ∨ t.sclk = .notDriven) s op (.inl rfl)
    (fun _ _ => .inl rfl) (.inl rfl) fun _ => ?_
  cases op
  case driveClk => exact absurd rfl (h _)
  case teardown => exact .inr rfl
  all_goals simp_all [State.runOp, MicroOp.isTest]

/-- What is left of a paired sequence is paired. -/
theorem State.runOp_clkPaired (s : State) (op : MicroOp) (h : clkPaired s.todo = true) :
    clkPaired (s.runOp op).todo = true := by
  rcases s.runOp_todo op with ht | ht | ⟨-, ht⟩ <;> rw [ht]
  · exact h
  · rfl
  · exact clkPaired_append (.sleep :: pollOps) _ rfl h

theorem State.ClockInv.microStep {s : State} (hs : s.ClockInv) : s.microStep.ClockInv := by
  refine ⟨State.DoneWhenIdle.microStep hs.1, State.microStep_invariant
    (fun t => clkPaired t.todo = true ∧ (t.sclk = .high → t.todo.head? = some (.driveClk false))) ?_ s hs.2⟩
  rintro s op rest e ⟨hpair, hhigh⟩
  rw [e] at hpair hhigh
  refine ⟨State.runOp_clkPaired _ op (clkPaired_tail hpair), fun h => ?_⟩
  by_cases hedge : ∃ b, op = .driveClk b
  · obtain ⟨_ | _, rfl⟩ := hedge
    · cases h
    · exact head?_of_clkPaired hpair
  · have hop := not_exists.mp hedge
    rcases State.runOp_sclk { s with todo := rest } op hop with hk | hk
    · have hfall := hhigh (hk.symm.trans h)
      exact absurd (Option.some_inj.mp hfall) (hop false)
    · rw [hk] at h
      cases h

/-- Where nothing runs SCLK is not high, so a start finds it so. -/
theorem State.ClockInv.start {s : State} (hs : s.ClockInv) (i : Instr) (hb : s.regs.busy = false) :
    (s.start i).ClockInv := by
  obtain ⟨hdone, -, hhigh⟩ := hs
  refine ⟨fun h => by simp at h, clkPaired_programOf i, fun h => ?_⟩
  have hfall := hhigh h
  rw [hdone hb] at hfall
  cases hfall

/-- A waiting start-up with SCLK not driven (R54). -/
theorem State.clockInv_of_startUp {s : State} (hb : s.regs.busy = true) (ht : s.todo = startUpProgram)
    (hk : s.sclk = .notDriven) : s.ClockInv := by
  refine ⟨fun h => by simp [hb] at h, ?_, fun h => by simp [hk] at h⟩
  rw [ht]
  exact clkPaired_calSeq

/-- Settles O43: a rise stands before its fall, and only where nothing runs does a sequence start. -/
theorem stepKeepsClockLowOutsidePulses : Obligations.StepKeepsClockLowOutsidePulses := by
  refine step_invariant State.ClockInv ?agenda ?read ?observe ?ovr ?frac ?reject ?start ?micro ?assert ?deassert
  case micro => exact fun _ => State.ClockInv.microStep
  case start => exact fun s i _ hb _ hs => hs.start i hb
  case assert => exact fun s _ => s.assertReset_eq ▸ State.clockInv_of_startUp rfl rfl rfl
  all_goals intros; assumption

end Sys2Proof.Machine
end

section
/-! Latches (R47): no turn of any kind faults where no latch is read before it is written. -/

namespace Sys2Proof.Machine

/-- An instruction runs or is refused (R63); it does not fault. -/
theorem exec_ne_fault (i : Instr) (s : State) (f : Fault) : exec i s ≠ .fault f := by
  cases i with
  | rd idx =>
    rw [exec, execRd]
    split_ifs <;> nofun
  | wr idx w =>
    rw [exec, execWr]
    split_ifs <;> nofun
  | _ => nofun

theorem hostTurn_ne_fault (bytes : List Byte) (s : State) (f : Fault) : hostTurn bytes s ≠ .fault f := by
  unfold hostTurn
  split
  · exact exec_ne_fault _ s f
  all_goals nofun

theorem State.LatchInv.engineTurn_ne_fault {s : State} (hs : s.LatchInv) (f : Fault) :
    Machine.engineTurn s ≠ .fault f := by
  rw [hs.engineTurn]
  nofun

theorem State.LatchInv.step_ne_fault {s : State} (hs : s.LatchInv) (f : Fault) : step s ≠ .fault f := by
  unfold step
  split
  · exact hs.engineTurn_ne_fault f
  · next t rest _ =>
    cases t with
    | engine => exact State.LatchInv.engineTurn_ne_fault (s := { s with agenda := rest }) hs f
    | frame bytes => exact hostTurn_ne_fault bytes _ f
    | assertReset => nofun
    | deassertReset => nofun

/-- The start-up writes every latch it reads (R241). -/
theorem State.latchInv_of_startUp {s : State} (ht : s.todo = startUpProgram) : s.LatchInv := by
  change writtenBeforeRead s.latches.known s.todo = true
  rw [ht]
  exact writtenBeforeRead_mono _ [] _ nofun (by decide +kernel)

/-- Settles O44: a start and a reset put sequences that write before they read. -/
theorem stepNeverReadsAnUnwrittenLatch : Obligations.StepNeverReadsAnUnwrittenLatch := by
  refine fun s hs => ⟨hs.step_ne_fault, fun t h => ?_⟩
  refine step_invariant State.LatchInv ?agenda ?read ?observe ?ovr ?frac ?reject ?start ?micro ?assert ?deassert
    s t hs h
  case micro => exact fun _ => State.LatchInv.microStep
  case start => exact fun s i hi _ _ _ => s.start_latchInv i hi
  case assert => exact fun s _ => s.assertReset_eq ▸ State.latchInv_of_startUp rfl
  all_goals intros; assumption

end Sys2Proof.Machine
end

section
/-! Time readings (R52): each is drawn no smaller than the previous one, and nothing else enters the pin trace as one. -/

namespace Sys2Proof.Machine

theorem nowReadings_append (a b : List PinStep) : nowReadings (a ++ b) = nowReadings a ++ nowReadings b :=
  List.filterMap_append

/-- A step of the pin trace that is no reading. -/
theorem State.TimeInv.append {s t : State} (hs : s.TimeInv) (he : t.env.lastNow = s.env.lastNow) (p : List PinStep)
    (hp : nowReadings p = []) (ht : t.obs.trace = s.obs.trace ++ p) : t.TimeInv := by
  rwa [State.TimeInv, ht, he, nowReadings_append, hp, List.append_nil]

/-- A reading drawn (R52) is the greatest so far. -/
theorem State.TimeInv.reading {s t : State} (hs : s.TimeInv) (he : t.env = s.env.afterReading)
    (ht : t.obs.trace = s.obs.trace ++ [.now (s.env.readingAt 0)]) : t.TimeInv := by
  obtain ⟨hsorted, hlast⟩ := hs
  have hle : ∀ x ∈ nowReadings s.obs.trace, x ≤ s.env.readingAt 0 := fun x hx =>
    BitVec.le_trans (hlast x hx) s.env.lastNow_le_readingAt
  have hnow : nowReadings [.now (s.env.readingAt 0)] = [s.env.readingAt 0] := rfl
  rw [State.TimeInv, ht, he, nowReadings_append, hnow, Env.lastNow_afterReading]
  simpa [List.pairwise_append, or_imp, forall_and, BitVec.le_refl, hsorted] using hle

theorem State.TimeInv.runOp {s : State} (op : MicroOp) (hs : s.TimeInv) : (s.runOp op).TimeInv := by
  refine State.runOp_of_tests State.TimeInv s op hs (fun _ _ => hs) hs fun _ => ?_
  cases op
  case readT0 => exact hs.reading rfl rfl
  case readT1 => exact hs.reading rfl rfl
  case validate | checkCal | pollTest => contradiction
  case configure => exact hs.append rfl [.configure _ _] rfl rfl
  case driveClk => exact hs.append rfl [.setClk _] rfl rfl
  case readData => exact hs.append rfl [.readData _] rfl rfl
  case sleep => exact hs.append rfl [.sleep _] rfl rfl
  case teardown => exact hs.append rfl [.releasePins] rfl rfl
  all_goals exact hs

theorem State.TimeInv.microStep {s : State} : s.TimeInv → s.microStep.TimeInv :=
  State.microStep_invariant State.TimeInv (fun _ op _ _ hs => State.TimeInv.runOp op hs) s

/-- A reset keeps the time source (R52) and adds no reading. -/
theorem State.TimeInv.assertReset {s : State} (hs : s.TimeInv) : s.assertReset.TimeInv := by
  rw [State.assertReset_eq]
  refine hs.append rfl _ ?_ rfl
  cases s.latches.conf <;> rfl

/-- Settles O45: only a micro-step adds a reading, and a drawn reading is the greatest so far. -/
theorem stepKeepsTimeMonotone : Obligations.StepKeepsTimeMonotone := by
  refine step_invariant State.TimeInv ?agenda ?read ?observe ?ovr ?frac ?reject ?start ?micro ?assert ?deassert
  case micro => exact fun _ => State.TimeInv.microStep
  case assert => exact fun _ => State.TimeInv.assertReset
  all_goals intros; assumption

end Sys2Proof.Machine
end

section
/-! STATUS (R25): each field is one digit of the word's sum, so a field is read off by division. -/

namespace Sys2Proof.Machine

/-- STATUS as a number, and the range of each of its digits. -/
theorem statusWord_toNat (r : Regs) : (statusWord r).toNat =
    r.busy.toNat + 2 * r.ready.toNat + 4 * r.viol.toNat + 8 * r.ovr.toNat +
      16 * r.phase.code + 256 * r.err.code + 65536 * r.cal.code ∧
    r.busy.toNat ≤ 1 ∧ r.ready.toNat ≤ 1 ∧ r.viol.toNat ≤ 1 ∧ r.ovr.toNat ≤ 1 ∧
    r.phase.code < 16 ∧ r.err.code < 256 ∧ r.cal.code < 4 := by
  have hp : r.phase.code < 16 := by cases r.phase <;> decide
  have he : r.err.code < 256 := by cases r.err <;> decide
  have hc : r.cal.code < 4 := by cases r.cal <;> decide
  have hb := r.busy.toNat_le
  have hr := r.ready.toNat_le
  have hv := r.viol.toNat_le
  have ho := r.ovr.toNat_le
  refine ⟨?_, hb, hr, hv, ho, hp, he, hc⟩
  rw [statusWord, BitVec.toNat_ofNat]
  exact Nat.mod_eq_of_lt (by omega)

/-- A field of several bits, as a number. -/
theorem statusWord_extract (r : Regs) (lo len v : Nat) (h : (statusWord r).toNat / 2 ^ lo % 2 ^ len = v) :
    (statusWord r).extractLsb' lo len = BitVec.ofNat len v := by
  apply BitVec.eq_of_toNat_eq
  rw [BitVec.extractLsb'_toNat, BitVec.toNat_ofNat, Nat.shiftRight_eq_div_pow, h, ← h, Nat.mod_mod]

/-- A field of one bit. -/
theorem statusWord_bit (r : Regs) (i : Nat) (b : Bool) (h : (statusWord r).toNat / 2 ^ i % 2 = b.toNat) :
    (statusWord r).getLsbD i = b := by
  rw [← BitVec.testBit_toNat, Nat.testBit_eq_decide_div_mod_eq, h]
  cases b <;> rfl

/-- Settles O5: the digits of the sum, and then the code of each value. -/
theorem statusFieldsStandWhereTheSpecSays : Obligations.StatusFieldsStandWhereTheSpecSays := by
  intro r
  obtain ⟨hw, hb, hr, hv, ho, hp, he, hc⟩ := statusWord_toNat r
  refine ⟨statusWord_bit r _ _ (by omega), statusWord_bit r _ _ (by omega), statusWord_bit r _ _ (by omega),
    statusWord_bit r _ _ (by omega), ?_, ?_, ?_, statusWord_extract r _ _ 0 (by omega)⟩
  · rw [statusWord_extract r 4 4 r.phase.code (by omega)]
    cases r.phase <;> rfl
  · rw [statusWord_extract r 8 8 r.err.code (by omega)]
    cases r.err <;> rfl
  · rw [statusWord_extract r 16 2 r.cal.code (by omega)]
    cases r.cal <;> rfl

end Sys2Proof.Machine
end

section
/-! The writers of the result registers and of VIOL (R27, R28, R32 to R38): what the micro-steps of a command may be. -/

namespace Sys2Proof.Machine

/-- The commands a micro-step may stand in: one that writes a result register in that register's own, one that latches a
command in none, any other in every. -/
def MicroOp.BelongsTo (i : Instr) : MicroOp → Prop
  | .completeReady => i = .isReady
  | .completeZero => i = .calZero
  | .completeUnit => i = .calUnit
  | .completeMeasure => i = .measure
  | .writeRaw => i.Acquires
  | .latchCommand _ => False
  | _ => True

theorem belongsTo_pulseOps (i : Instr) : ∀ op ∈ pulseOps, op.BelongsTo i := by simp [pulseOps, MicroOp.BelongsTo]

theorem belongsTo_pollOps (i : Instr) : ∀ op ∈ pollOps, op.BelongsTo i := by simp [pollOps, MicroOp.BelongsTo]

theorem belongsTo_calSeq (i : Instr) : ∀ op ∈ calSeq, op.BelongsTo i := by
  have hdiscard := forall_mem_loopOps (MicroOp.BelongsTo i) discardOps fun k => by
    simpa [discardOps, MicroOp.BelongsTo] using belongsTo_pulseOps i
  have hcheck := forall_mem_loopOps (MicroOp.BelongsTo i) checkOps fun k => by
    simpa [checkOps, MicroOp.BelongsTo, or_imp, forall_and] using belongsTo_pulseOps i
  simp only [calSeq, List.forall_mem_cons, List.forall_mem_append]
  exact ⟨trivial, hdiscard _ _, hcheck _ _, trivial, nofun⟩

theorem belongsTo_acquireThen (i : Instr) (hi : i.Acquires) (op : MicroOp) (hop : op.BelongsTo i) :
    ∀ op' ∈ acquireThen [op], op'.BelongsTo i := by
  have hbit := forall_mem_loopOps (MicroOp.BelongsTo i) bitOps fun k => by
    simpa [bitOps, MicroOp.BelongsTo, or_imp, forall_and] using belongsTo_pulseOps i
  simp only [acquireThen, waitReady, readSample, List.cons_append, List.forall_mem_cons, List.forall_mem_append]
  exact ⟨trivial, trivial, belongsTo_pollOps i, trivial, trivial, hbit _ _, hi, trivial, hop, nofun⟩

/-- A command's own sequence (R83). -/
theorem belongsTo_programOf (i : Instr) : ∀ op ∈ programOf i, op.BelongsTo i := by
  cases i with
  | pulse => simpa [programOf, pulseProgram, MicroOp.BelongsTo, or_imp, forall_and] using belongsTo_pulseOps .pulse
  | calibrate => exact belongsTo_calSeq _
  | measureRaw => exact belongsTo_acquireThen _ (by simp [Instr.Acquires]) _ trivial
  | calZero => exact belongsTo_acquireThen _ (by simp [Instr.Acquires]) _ rfl
  | calUnit => exact belongsTo_acquireThen _ (by simp [Instr.Acquires]) _ rfl
  | measure => exact belongsTo_acquireThen _ (by simp [Instr.Acquires]) _ rfl
  | isReady => simp [programOf, isReadyProgram, MicroOp.BelongsTo]
  | release => simp [programOf, releaseProgram, MicroOp.BelongsTo]
  | rd => nofun
  | wr => nofun

/-- The engine runs what is left of the command `i`. -/
def State.Runs (i : Instr) (s : State) : Prop :=
  s.latches.cmdL.value = opcode i ∧ ∀ op ∈ s.todo, op.BelongsTo i

theorem State.start_runs (s : State) (i : Instr) : (s.start i).Runs i := ⟨rfl, belongsTo_programOf i⟩

/-- Only `latchCommand` changes the latched command. -/
theorem State.runOp_cmdL (s : State) (op : MicroOp) (h : ∀ c, op ≠ .latchCommand c) :
    (s.runOp op).latches.cmdL = s.latches.cmdL := by
  refine State.runOp_of_tests (fun t => t.latches.cmdL = s.latches.cmdL) s op rfl (fun _ _ => rfl) rfl fun _ => ?_
  cases op
  case latchCommand => exact absurd rfl (h _)
  case validate | checkCal | pollTest => contradiction
  all_goals rfl

theorem State.Runs.runOp {i : Instr} {s : State} {op : MicroOp} (hs : s.Runs i) (hop : op.BelongsTo i) :
    (s.runOp op).Runs i := by
  obtain ⟨hcmd, htodo⟩ := hs
  refine ⟨?_, ?_⟩
  · rw [State.runOp_cmdL s op (by rintro c rfl; exact hop), hcmd]
  · rcases s.runOp_todo op with h | h | ⟨-, h⟩ <;> rw [h]
    · exact htodo
    · nofun
    · rw [List.forall_mem_cons, List.forall_mem_append]
      exact ⟨trivial, belongsTo_pollOps i, htodo⟩

/-- What every micro-step of a command keeps, its run keeps. -/
theorem State.Runs.runToEnd_invariant {i : Instr} (P : State → Prop)
    (h : ∀ (s : State) op rest, s.todo = op :: rest → s.latches.cmdL.value = opcode i → op.BelongsTo i → P s →
      P ({ s with todo := rest }.runOp op)) (n : Nat) {s : State} (hr : s.Runs i) (hs : P s) : P (s.runToEnd n) := by
  refine (State.runToEnd_invariant (fun t => t.Runs i ∧ P t) (State.microStep_invariant _ ?_) n s ⟨hr, hs⟩).2
  rintro s op rest e ⟨⟨hcmd, htodo⟩, hp⟩
  rw [e, List.forall_mem_cons] at htodo
  exact ⟨State.Runs.runOp ⟨hcmd, htodo.2⟩ htodo.1, h s op rest e hcmd htodo.1 hp⟩

/-- The latched opcode is CALIBRATE's only in CALIBRATE (R83). -/
theorem eq_calibrate_of_opcode {i : Instr} (h : opcode i = opcode .calibrate) : i = .calibrate := by
  cases i
  case calibrate => rfl
  all_goals exact absurd h (by simp [opcode])

/-- The registers differ at most in BUSY, OVR and what a start or a rejection sets (R184, R185, R186). -/
def SameResults (r r' : Regs) : Prop :=
  ∃ busy ovr err errinfo pulses polls hightime, r' = { r with
    busy := busy, ovr := ovr, err := err, errinfo := errinfo, pulses := pulses, polls := polls, hightime := hightime }

theorem SameResults.refl (r : Regs) : SameResults r r := ⟨_, _, _, _, _, _, _, rfl⟩

/-- An acceptance reaches no result register (R183). -/
theorem State.accept_sameResults (s : State) (w : Word) : SameResults s.regs (s.accept w).regs := by
  rcases s.accept_shapes w with ⟨b, h⟩ | ⟨c, info, -, h⟩ | ⟨i, -, -, -, -, h⟩ <;> rw [h]
  · exact ⟨_, b, _, _, _, _, _, rfl⟩
  · exact ⟨_, _, c, info, 0, 0, 0, rfl⟩
  · exact ⟨true, _, .ok, 0, 0, 0, 0, rfl⟩

/-- What an instruction can do to the registers: no result register, FRACTION written, or a command run. -/
theorem exec_regs_cases (s t : State) (i : Instr) (h : exec i s = .next t) :
    SameResults s.regs t.regs ∨ (∃ w, i = .wr 2 w ∧ t.regs = { s.regs with fraction := w }) ∨
      t = (s.start i).observe.runToEnd commandBound := by
  rcases exec_cases s t i h with ⟨hi, rfl⟩ | ⟨idx, -, rfl⟩ | ⟨idx, w, rfl, rfl⟩
  · rcases s.runCommand_cases i hi with ⟨-, h⟩ | ⟨-, -, h⟩ | ⟨code, info, -, -, h⟩ | ⟨-, -, h⟩ <;> rw [h]
    · exact .inl (.refl _)
    · exact .inl ⟨_, true, _, _, _, _, _, rfl⟩
    · exact .inl ⟨_, _, code, info, 0, 0, 0, rfl⟩
    · exact .inr (.inr rfl)
  · exact .inl (.refl _)
  · rw [State.hostWrite_eq, State.observe_regs]
    rcases s.regWrite_cases idx w with h | ⟨-, -, h⟩ | ⟨b, h⟩ | ⟨rfl, h⟩ <;> rw [h]
    · exact .inl (.refl _)
    · exact .inl (s.accept_sameResults w)
    · exact .inl ⟨_, b, _, _, _, _, _, rfl⟩
    · exact .inr (.inl ⟨w, rfl, rfl⟩)

/-- Each result register is kept by every instruction but its own writers. -/
structure KeepsResults (i : Instr) (r r' : Regs) : Prop where
  ready : i ≠ .isReady → r'.ready = r.ready
  cal : i ≠ .calibrate → r'.cal = r.cal
  zero : i ≠ .calZero → r'.zero = r.zero
  unit : i ≠ .calUnit → r'.unit = r.unit
  result : i ≠ .measure → r'.result = r.result
  raw : ¬i.Acquires → r'.raw = r.raw ∧ r'.rawbits = r.rawbits
  fraction : (¬∃ w, i = .wr 2 w) → r'.fraction = r.fraction

theorem KeepsResults.trans {i : Instr} {r r' r'' : Regs} (h : KeepsResults i r r') (h' : KeepsResults i r' r'') :
    KeepsResults i r r'' where
  ready hi := (h'.ready hi).trans (h.ready hi)
  cal hi := (h'.cal hi).trans (h.cal hi)
  zero hi := (h'.zero hi).trans (h.zero hi)
  unit hi := (h'.unit hi).trans (h.unit hi)
  result hi := (h'.result hi).trans (h.result hi)
  raw hi := ⟨(h'.raw hi).1.trans (h.raw hi).1, (h'.raw hi).2.trans (h.raw hi).2⟩
  fraction hi := (h'.fraction hi).trans (h.fraction hi)

/-- The end of a command touches no result register but STATUS.CAL, and that only for CALIBRATE (R212). -/
theorem keepsResults_terminateRegs (i : Instr) (r : Regs) (code : ResultCode) (info : Word) :
    KeepsResults i r (terminateRegs r (opcode i) code info) := by
  constructor
  case cal => exact fun hi => if_neg (mt eq_calibrate_of_opcode hi)
  all_goals simp [terminateRegs]

/-- A command keeps what its micro-steps keep: the one that writes a result register stands in its own command. -/
theorem State.runOp_keepsResults {i : Instr} {s : State} {op : MicroOp} (hcmd : s.latches.cmdL.value = opcode i)
    (hop : op.BelongsTo i) : KeepsResults i s.regs (s.runOp op).regs := by
  have hsame : KeepsResults i s.regs s.regs := by constructor <;> simp
  have hterm (r : Regs) := keepsResults_terminateRegs i r .ok 0
  rw [← hcmd] at hterm
  refine State.runOp_of_tests (fun t => KeepsResults i s.regs t.regs) s op hsame (fun code info => ?_) hsame fun _ => ?_
  · exact State.terminate_regs s code info ▸ hcmd ▸ keepsResults_terminateRegs i s.regs code info
  · cases op
    case validate | checkCal | pollTest => contradiction
    case complete => exact hterm _
    case completeReady | completeZero | completeUnit | completeMeasure =>
      exact .trans (by constructor <;> simp_all [MicroOp.BelongsTo]) (hterm _)
    case writeRaw => constructor <;> simp_all [State.runOp, MicroOp.BelongsTo]
    all_goals constructor <;> simp [State.runOp]

theorem State.runToEnd_keepsResults (s : State) (i : Instr) (n : Nat) :
    KeepsResults i s.regs ((s.start i).observe.runToEnd n).regs := by
  refine State.Runs.runToEnd_invariant (fun t => KeepsResults i s.regs t.regs) ?_ n (s.start_runs i)
    (by constructor <;> simp)
  exact fun t op rest _ hcmd hop ht => ht.trans (State.runOp_keepsResults (s := { t with todo := rest }) hcmd hop)

theorem exec_keepsResults (s t : State) (i : Instr) (h : exec i s = .next t) : KeepsResults i s.regs t.regs := by
  rcases exec_regs_cases s t i h with ⟨busy, ovr, err, errinfo, pulses, polls, hightime, hr⟩ | ⟨w, rfl, hr⟩ | rfl
  · rw [hr]
    constructor <;> simp
  · rw [hr]
    constructor <;> simp
  · exact s.runToEnd_keepsResults i _

/-- Settles O29: what an instruction other than its writers keeps, it does not change. -/
theorem resultRegistersHaveTheirOwnWriters : Obligations.ResultRegistersHaveTheirOwnWriters := by
  intro s t i h
  have hk := exec_keepsResults s t i h
  refine ⟨not_imp_comm.mp hk.ready, not_imp_comm.mp hk.cal, not_imp_comm.mp hk.zero, not_imp_comm.mp hk.unit,
    not_imp_comm.mp hk.result, fun hne => ?_, not_imp_comm.mp hk.fraction⟩
  by_contra hi
  obtain ⟨hraw, hbits⟩ := hk.raw hi
  exact hne.elim (· hraw) (· hbits)

/-- VIOL is still 1, or a CALIBRATE has passed and ended (R28). -/
def State.ViolHeld (i : Instr) (t : State) : Prop :=
  t.regs.viol = true ∨ i = .calibrate ∧ t.regs.cal = .passed ∧ t.regs.err = .ok ∧ t.todo = []

/-- How a command ends with VIOL 1 before (R212). -/
theorem State.terminate_violHeld {s : State} {i : Instr} (code : ResultCode) (info : Word)
    (hcmd : s.latches.cmdL.value = opcode i) (hv : s.regs.viol = true) : (s.terminate code info).ViolHeld i := by
  by_cases h : opcode i = opcode .calibrate ∧ code = .ok
  · obtain ⟨hi, rfl⟩ := h
    exact .inr ⟨eq_calibrate_of_opcode hi, by simp [terminateRegs, hcmd, hi, calOutcomeOf], rfl, rfl⟩
  · left
    simp only [State.terminate_regs, terminateRegs, violAfter, hcmd, hv, Bool.true_or]
    exact if_neg (by simpa using h)

theorem State.runOp_violHeld {s : State} {i : Instr} (op : MicroOp) (hcmd : s.latches.cmdL.value = opcode i)
    (hv : s.regs.viol = true) : (s.runOp op).ViolHeld i := by
  refine State.runOp_of_tests (State.ViolHeld i) s op (.inl hv) (fun code info => ?_) (.inl hv) fun _ => ?_
  · exact State.terminate_violHeld code info hcmd hv
  · cases op
    case validate | checkCal | pollTest => contradiction
    case complete | completeReady | completeZero | completeUnit | completeMeasure =>
      exact State.terminate_violHeld .ok 0 hcmd hv
    all_goals exact .inl hv

theorem State.runToEnd_violHeld (s : State) (i : Instr) (n : Nat) (hv : s.regs.viol = true) :
    ((s.start i).observe.runToEnd n).ViolHeld i := by
  refine State.Runs.runToEnd_invariant (State.ViolHeld i) ?_ n (s.start_runs i) (.inl hv)
  rintro t op rest e hcmd - (ht | ⟨-, -, -, hdone⟩)
  · exact State.runOp_violHeld op hcmd ht
  · simp [e] at hdone

/-- Settles O30: a run that has cleared VIOL has ended. -/
theorem onlyAPassingCalibrationClearsViol : Obligations.OnlyAPassingCalibrationClearsViol := by
  intro s t i h hv hclear
  have hheld : t.ViolHeld i := by
    rcases exec_regs_cases s t i h with ⟨busy, ovr, err, errinfo, pulses, polls, hightime, hr⟩ | ⟨w, -, hr⟩ | rfl
    · exact .inl (hr ▸ hv)
    · exact .inl (hr ▸ hv)
    · exact s.runToEnd_violHeld i _ hv
  rcases hheld with hset | ⟨hi, hcal, herr, -⟩
  · simp [hclear] at hset
  · exact ⟨hi, hcal, herr⟩

end Sys2Proof.Machine
end

section
/-! FRACTION beside a running command (R33): no micro-step reads it, since CAL_UNIT has its own copy. -/

namespace Sys2Proof.Machine

/-- The state with another FRACTION and another record of host accesses. -/
def State.withFraction (s : State) (w : Word) (accesses : List Regs) : State :=
  { s with regs := { s.regs with fraction := w }, obs := { s.obs with afterAccess := accesses } }

@[simp] theorem State.withFraction_latches (s : State) (w : Word) (accesses : List Regs) :
    (s.withFraction w accesses).latches = s.latches := rfl

@[simp] theorem State.withFraction_resetAsserted (s : State) (w : Word) (accesses : List Regs) :
    (s.withFraction w accesses).resetAsserted = s.resetAsserted := rfl

@[simp] theorem State.withFraction_todo (s : State) (w : Word) (accesses : List Regs) :
    (s.withFraction w accesses).todo = s.todo := rfl

/-- A micro-step does the same whatever FRACTION holds. -/
theorem State.withFraction_runOp (s : State) (w : Word) (accesses : List Regs) (op : MicroOp) :
    (s.withFraction w accesses).runOp op = (s.runOp op).withFraction w accesses := by
  cases op
  case validate =>
    simp only [State.runOp, State.validate, apply_ite (State.withFraction · w accesses)]
    rfl
  case checkCal =>
    simp only [State.runOp, State.checkCal, apply_ite (State.withFraction · w accesses)]
    rfl
  case pollTest =>
    simp only [State.runOp, State.pollTest, apply_ite (State.withFraction · w accesses)]
    rfl
  all_goals rfl

theorem State.withFraction_microStep (s : State) (w : Word) (accesses : List Regs) :
    (s.withFraction w accesses).microStep = s.microStep.withFraction w accesses := by
  unfold State.microStep
  by_cases hr : s.resetAsserted = true
  · rw [if_pos hr, State.withFraction_resetAsserted, if_pos hr]
  · rw [if_neg hr, State.withFraction_resetAsserted, if_neg hr, State.withFraction_todo]
    cases s.todo with
    | nil => rfl
    | cons op rest => exact State.withFraction_runOp { s with todo := rest } w accesses op

theorem engineTurn_withFraction {s t : State} (w : Word) (accesses : List Regs) (h : engineTurn s = .next t) :
    engineTurn (s.withFraction w accesses) = .next (t.withFraction w accesses) := by
  unfold engineTurn at h ⊢
  cases hr : s.resetAsserted with
  | true => simp_all
  | false =>
    cases e : s.todo with
    | nil => simp_all
    | cons op rest =>
      cases hn : s.latches.firstUnwritten op with
      | some n => simp_all
      | none =>
        have ht : s.microStep = t := by simpa [hr, e, hn] using h
        simp [hr, e, hn, State.withFraction_microStep, ht]

/-- Settles O34: the write leaves the state with another FRACTION. -/
theorem fractionWriteDoesNotAffectTheRunningCommand : Obligations.FractionWriteDoesNotAffectTheRunningCommand := by
  intro s r t w hreset hr ht
  have hwrite : s.hostWrite 2 w = s.withFraction w (s.obs.afterAccess ++ [{ s.regs with fraction := w }]) := by
    simp [State.regWrite, hreset, State.observe, State.withFraction]
  rcases exec_cases s r _ hr with ⟨hc, -⟩ | ⟨_, ⟨⟩, -⟩ | ⟨_, _, ⟨⟩, rfl⟩
  · simp [Instr.IsCommand] at hc
  · rw [hwrite]
    exact engineTurn_withFraction w _ ht

end Sys2Proof.Machine
end

section
/-! The state at reset (R54). -/

namespace Sys2Proof.Machine

/-- Settles O36, field by field. -/
theorem resetValues : Obligations.ResetValues := by
  refine ⟨rfl, rfl, rfl, rfl, rfl, rfl, rfl, rfl, rfl, rfl, rfl, rfl, rfl, rfl, rfl, rfl, rfl, fun n => ?_⟩
  cases n <;> rfl

/-- Settles O46: the start-up of R241 is due, no pin is driven and nothing has been observed. -/
theorem invariantsHoldAtReset : Obligations.InvariantsHoldAtReset := by
  refine ⟨State.sampleInv_of_resetRegs rfl, State.engineInv_of_busy rfl endsByCompleting_startUpProgram,
    State.clockInv_of_startUp rfl rfl rfl, State.latchInv_of_startUp rfl, ⟨.nil, nofun⟩, nofun, fun _ => .inl ?_⟩
  exact ⟨rfl, nofun, .inl ⟨rfl, Nat.zero_le 1⟩⟩

end Sys2Proof.Machine
end

section
/-! The order of a sample's bits on the data line (R60): each bit read shifts those before it one place up. -/

namespace Sys2Proof.Machine

/-- Of `n` levels shifted in, the one drawn `j`-th (from 0) stands `j + 1` places below the top. -/
theorem Env.getLsbD_patternAt (e : Env) (first n j : Nat) (hn : n ≤ Config.nBits) (hj : j < n) :
    (e.patternAt first n).getLsbD (n - (j + 1)) = e.levelAt (first + j) := by
  induction n with
  | zero => omega
  | succ n ih =>
    rw [Env.patternAt, getLsbD_shiftIn _ _ _ (by omega), Nat.succ_sub_succ]
    by_cases hlast : j = n
    · rw [if_pos (by omega), hlast]
    · rw [if_neg (by omega), Nat.sub_sub]
      exact ih (by omega) (by omega)

/-- Settles O51: the whole sample is twenty levels shifted in. -/
theorem serialBitsArriveMostSignificantFirst : Obligations.SerialBitsArriveMostSignificantFirst := by
  intro e first i h1 h20
  have h := e.getLsbD_patternAt first 20 (i - 1) (Nat.le_refl 20) (by omega)
  rwa [Nat.sub_add_cancel h1] at h

end Sys2Proof.Machine
end

section
/-! A host read beside a running command (R65, R70): it touches only the host's records, which no micro-step looks at. -/

namespace Sys2Proof.Machine

/-- A change of the state that the engine does not see: it keeps what an engine turn decides by, and every micro-step
carries it along. -/
structure EngineBlind (f : State → State) : Prop where
  resetAsserted : ∀ s, (f s).resetAsserted = s.resetAsserted
  todo : ∀ s, (f s).todo = s.todo
  latches : ∀ s, (f s).latches = s.latches
  withTodo : ∀ s rest, { f s with todo := rest } = f { s with todo := rest }
  runOp : ∀ s op, (f s).runOp op = f (s.runOp op)

theorem EngineBlind.microStep {f : State → State} (hf : EngineBlind f) (s : State) :
    (f s).microStep = f s.microStep := by
  unfold State.microStep
  by_cases hr : s.resetAsserted = true
  · rw [if_pos hr, if_pos ((hf.resetAsserted s).trans hr)]
  · rw [if_neg hr, if_neg (hf.resetAsserted s ▸ hr), hf.todo]
    cases s.todo with
    | nil => rfl
    | cons op rest =>
      dsimp only
      rw [hf.withTodo, hf.runOp]

/-- The engine's turn carries along a change it does not see. -/
theorem EngineBlind.engineTurn {f : State → State} (hf : EngineBlind f) {s t : State}
    (h : engineTurn s = .next t) : engineTurn (f s) = .next (f t) := by
  unfold Machine.engineTurn at h ⊢
  rw [hf.resetAsserted, hf.todo, hf.latches, hf.microStep]
  split at h
  · next hr => cases h; rw [if_pos hr]
  · next hr =>
    rw [if_neg hr]
    cases e : s.todo with
    | nil => simp_all
    | cons op rest =>
      cases hn : s.latches.firstUnwritten op <;> simp_all

/-- The state with other records of what the host has read and seen. -/
def State.withRecords (reads : List (Nat × Word)) (accesses : List Regs) (s : State) : State :=
  { s with obs := { s.obs with reads := reads, afterAccess := accesses } }

/-- A host read changes the host's records alone (R65). -/
theorem State.hostRead_eq_withRecords (s : State) (idx : Nat) :
    s.hostRead idx = s.withRecords (s.hostRead idx).obs.reads (s.hostRead idx).obs.afterAccess := rfl

theorem engineBlind_withRecords (reads : List (Nat × Word)) (accesses : List Regs) :
    EngineBlind (State.withRecords reads accesses) where
  resetAsserted _ := rfl
  todo _ := rfl
  latches _ := rfl
  withTodo _ _ := rfl
  runOp s op := by
    cases op
    case validate | checkCal | pollTest =>
      simp only [State.runOp, State.validate, State.checkCal, State.pollTest,
        apply_ite (State.withRecords reads accesses)]
      rfl
    all_goals rfl

/-- Settles O33: the read leaves the state with other records. -/
theorem hostReadsDoNotDisturbTheEngine : Obligations.HostReadsDoNotDisturbTheEngine := by
  intro s r t idx hr ht
  rcases exec_cases s r _ hr with ⟨hc, -⟩ | ⟨_, ⟨⟩, rfl⟩ | ⟨_, _, ⟨⟩, -⟩
  · simp [Instr.IsCommand] at hc
  · rw [s.hostRead_eq_withRecords]
    exact (engineBlind_withRecords _ _).engineTurn ht

end Sys2Proof.Machine
end

section
/-! Every command comes to its end within the bound of R187, whatever is drawn; so the engine's turns, which are the
micro-steps of the run, reach the state the command alone reaches (R70, R71). -/

namespace Sys2Proof.Machine

/-- Micro-steps within the bound of R187 bring the sequence `todo`, run from `s`, to its end. -/
def State.EndsFrom (s : State) (todo : List MicroOp) : Prop :=
  ({ s with todo := todo }.runToEnd commandBound).regs.busy = false

theorem State.endsFrom_of_run {s t : State} {todo : List MicroOp} (n : Nat) (hn : n ≤ commandBound)
    (h : { s with todo := todo }.runToEnd n = t) (ht : t.regs.busy = false) : s.EndsFrom todo := by
  rw [State.EndsFrom, State.runToEnd_of_done _ t n _ h ht hn, ht]

/-- A micro-step that completes leaves BUSY 0 (R212). -/
theorem State.runOp_completes_busy (s : State) (op : MicroOp) (h : op.completes = true) :
    (s.runOp op).regs.busy = false := by
  cases op
  case complete | completeReady | completeZero | completeUnit | completeMeasure => rfl
  all_goals cases h

/-- A run that has come to its completing micro-step ends with it. -/
theorem State.runToEnd_completes_busy (s : State) (op : MicroOp) (n : Nat) (ht : s.todo = [op])
    (hr : s.resetAsserted = false) (hb : s.regs.busy = true) (h : op.completes = true) :
    (s.runToEnd (n + 1)).regs.busy = false := by
  have hend := State.runOp_completes_busy { s with todo := [] } op h
  rw [s.run_head op [] n ht hr hb, State.runToEnd_idle _ _ hend, hend]

theorem State.endsFrom_pulseProgram (s : State) (hr : s.resetAsserted = false) (hb : s.regs.busy = true) :
    s.EndsFrom pulseProgram := by
  have start := s.run_setPhase .pulsing (pulseOps ++ [.complete]) (1 + 8) hr hb
  by_cases hv : ValidHigh (s.env.highAt 0)
  · have pulse := (s.inPhase .pulsing).run_pulse_only 0 0 [] s.latches [.complete] (0 + 1) hr hb hv
    exact State.endsFrom_of_run _ (by decide) (start.trans pulse)
      (State.runToEnd_completes_busy _ .complete 0 rfl hr hb rfl)
  · have pulse := (s.inPhase .pulsing).run_pulse_only_violation 0 0 [] s.latches [.complete] (0 + 1) hr hb hv
    exact State.endsFrom_of_run _ (by decide) (start.trans pulse) rfl

/-- A calibration ends by its first violation or failing check, or it passes (R121 to R125). -/
theorem State.endsFrom_calSeq (s : State) (hr : s.resetAsserted = false) (hb : s.regs.busy = true) :
    s.EndsFrom calSeq := by
  have fails (j : Nat) (hj : j < 4) (hv : ∀ i < 23 + j, ValidHigh (s.env.highAt i))
      (hd : ∀ i < j, s.env.levelAt i = true) (h0 : s.env.levelAt j = false) : s.EndsFrom calSeq := by
    obtain ⟨l, -, e⟩ := s.run_cal_fail hr hb j hj hv hd h0
    exact State.endsFrom_of_run 244 (by decide) e rfl
  rcases first_violation s.env.highAt 26 with hv | ⟨n, hn, hv, hx⟩
  · rcases first_zero s.env.levelAt 4 with hd | ⟨j, hj, hd, h0⟩
    · obtain ⟨l, -, e⟩ := s.run_cal_pass hr hb hv hd
      exact State.endsFrom_of_run 244 (by decide) e rfl
    · exact fails j hj (fun i hi => hv i (by omega)) hd h0
  · rcases first_zero s.env.levelAt (n - 22) with hd | ⟨j, hj, hd, h0⟩
    · obtain ⟨l, -, e⟩ := s.run_cal_violation hr hb n hn hv hx hd
      exact State.endsFrom_of_run 244 (by decide) e rfl
    · exact fails j (by omega) (fun i hi => hv i (by omega)) hd h0

/-- An acquisition is never ready, ends by its first violation, or reads its sample and completes (R128 to R131). -/
theorem State.endsFrom_acquireThen (s : State) (op : MicroOp) (hop : op.completes = true)
    (hr : s.resetAsserted = false) (hb : s.regs.busy = true) : s.EndsFrom (acquireThen [op]) := by
  rcases first_zero s.env.levelAt 171 with hd | ⟨q, hq, hd⟩
  · obtain ⟨l, -, e⟩ := s.run_acquire_timeout hr hb 0 [op] hd
    exact State.endsFrom_of_run _ (by decide) e rfl
  · have hbound : 0 + 1 + 5 * q + 230 ≤ commandBound := by
      have : commandBound = 1081 := rfl
      omega
    rcases first_violation s.env.highAt 20 with hv | ⟨n, hn, hv, hx⟩
    · obtain ⟨l, -, -, e⟩ := s.run_acquire hr hb q (0 + 1) [op] hq hd hv
      exact State.endsFrom_of_run _ hbound e (State.runToEnd_completes_busy _ op 0 rfl hr hb hop)
    · obtain ⟨l, -, e⟩ := s.run_acquire_violation hr hb q n (0 + 1) [op] hq hd hn hv hx
      exact State.endsFrom_of_run _ hbound e rfl

/-- Whatever is drawn, the micro-steps of a command come to their end within the bound (R187). -/
theorem State.endsFrom_programOf (s : State) (i : Instr) (hi : i.IsCommand) (hr : s.resetAsserted = false)
    (hb : s.regs.busy = true) : s.EndsFrom (programOf i) := by
  rcases hi with rfl | rfl | rfl | rfl | rfl | rfl | rfl | rfl
  · exact s.endsFrom_pulseProgram hr hb
  · exact s.endsFrom_calSeq hr hb
  · refine State.endsFrom_of_run 3 (by decide) rfl ?_
    simp [programOf, isReadyProgram, State.runToEnd, State.microStep, State.runOp, hr, hb]
  · exact s.endsFrom_acquireThen .complete rfl hr hb
  · exact s.endsFrom_acquireThen .completeZero rfl hr hb
  · exact s.endsFrom_acquireThen .completeUnit rfl hr hb
  · exact s.endsFrom_acquireThen .completeMeasure rfl hr hb
  · refine State.endsFrom_of_run 2 (by decide) rfl ?_
    simp [programOf, releaseProgram, State.runToEnd, State.microStep, State.runOp, hr, hb]

/-- Settles O35: the turns are taken to the bound, where the command alone has ended. -/
theorem engineTurnsReachTheCommandsResult : Obligations.EngineTurnsReachTheCommandsResult := by
  intro s r i ha hagenda hi hm hr
  rw [exec_wr_cmd s _ ha.1, s.accept_start i ha hi hm] at hr
  cases hr
  refine ⟨commandBound, (s.start i).observe.runToEnd commandBound, Nat.le_refl _, ?_, ?_, ?_⟩
  · exact core_run_eq commandBound (s.start i).observe (s.start_latchInv i hi) hagenda nofun
  · rw [exec_command i hi, s.runCommand_start i ha hi hm]
  · exact (s.start i).observe.endsFrom_programOf i hi ha.1 rfl

end Sys2Proof.Machine
end

section
/-! What a step does with a presented frame (R63, R70, R85, R86), and the byte view of a bridge (R61). -/

namespace Sys2Proof.Machine

/-- Settles O6: the index fails the one test of each access. -/
theorem indexOutsideThePortIsRefused : Obligations.IndexOutsideThePortIsRefused := by
  intro s idx w h
  have hidx : ¬idx < 16 := Nat.not_lt.mpr h
  exact ⟨if_neg hidx, if_neg hidx⟩

/-- A frame at the head of the agenda is the host's turn (R70). -/
theorem step_of_frame {s : State} {bytes : List Byte} {rest : List Turn} (h : s.agenda = .frame bytes :: rest) :
    step s = hostTurn bytes { s with agenda := rest } := by
  rw [step, h]
  rfl

/-- Settles O47: the turn taken off the agenda is the host's. -/
theorem stepRunsTheDecodedInstruction : Obligations.StepRunsTheDecodedInstruction := by
  intro s bytes rest i hagenda hi
  rw [step_of_frame hagenda, hostTurn, hi]

/-- Settles O48, one decode error at a time. -/
theorem stepAnswersIllegalWords : Obligations.StepAnswersIllegalWords := by
  intro s bytes rest e hagenda he
  rw [step_of_frame hagenda, hostTurn, he]
  cases e with
  | illegalCommand w =>
    refine ⟨?_, fun hne => absurd rfl (hne w)⟩
    rintro _ ⟨⟩
    rfl
  | reservedBits => exact ⟨nofun, fun _ => rfl⟩
  | notATransaction length => exact ⟨nofun, fun _ => rfl⟩

/-- Settles O58: offset `8i + j` is byte `j` of register `i`. -/
theorem bridgeIsLittleEndian : Obligations.BridgeIsLittleEndian := by
  intro r i j b _ hj hb
  have hreg : (8 * i + j) / 8 = i := by omega
  have hbyte : (8 * i + j) % 8 = j := by omega
  rw [bridgeByte, hreg, hbyte, BitVec.getLsbD_extractLsb', decide_eq_true hb, Bool.true_and]

end Sys2Proof.Machine
end

section
/-! Command words (R80, R83 to R85): the legal words are the eight opcodes, each the word of its command. -/

namespace Sys2Proof.Machine

/-- The two fields of R80 make up the word. -/
theorem toNat_eq_opcField_add_rsvField (w : Word) : w.toNat = (opcField w).toNat + 256 * (rsvField w).toNat := by
  simp only [opcField, rsvField, BitVec.extractLsb'_toNat, Nat.shiftRight_eq_div_pow]
  have := w.isLt
  omega

/-- A word whose reserved field is 0 is its opcode. -/
theorem eq_setWidth_opcField {w : Word} (h : rsvField w = 0) : w = (opcField w).setWidth 64 := by
  have hw := toNat_eq_opcField_add_rsvField w
  rw [h] at hw
  apply BitVec.eq_of_toNat_eq
  rw [BitVec.toNat_setWidth_of_le (by decide)]
  simpa using hw

/-- A legal word is the word of the command it decodes to. -/
theorem eq_commandWord_of_decodeCommand {w : Word} {i : Instr} (h : decodeCommand w = some i) :
    i.IsCommand ∧ w = commandWord i := by
  unfold decodeCommand at h
  split at h
  · cases h
  · next hrsv =>
    have hw := eq_setWidth_opcField (not_not.mp hrsv)
    split at h <;> cases h
    all_goals next hopc =>
      exact ⟨by simp [Instr.IsCommand], hw.trans (congrArg _ (BitVec.eq_of_toNat_eq hopc))⟩

theorem decodeCommand_eq_some_iff (w : Word) (i : Instr) :
    decodeCommand w = some i ↔ i.IsCommand ∧ w = commandWord i :=
  ⟨eq_commandWord_of_decodeCommand, fun ⟨hi, hw⟩ => hw ▸ decodeCommand_commandWord i hi⟩

/-- The commands' words are the numbers 1 to 8 (R83). -/
theorem commandWord_toNat_range {i : Instr} (hi : i.IsCommand) :
    1 ≤ (commandWord i).toNat ∧ (commandWord i).toNat ≤ 8 := by
  rcases hi with rfl | rfl | rfl | rfl | rfl | rfl | rfl | rfl <;> decide

/-- Each of the numbers 1 to 8 is a command's word (R83). -/
theorem decodeCommand_ne_none_of_range {w : Word} (hlo : 1 ≤ w.toNat) (hhi : w.toNat ≤ 8) :
    decodeCommand w ≠ none := by
  have hw : w = BitVec.ofNat 64 w.toNat := by rw [BitVec.ofNat_toNat, BitVec.setWidth_eq]
  rw [hw]
  generalize w.toNat = n at hlo hhi
  interval_cases n <;> decide

/-- The illegal words (R85). -/
theorem decodeCommand_eq_none_iff (w : Word) : decodeCommand w = none ↔ w = 0 ∨ 9 ≤ w.toNat := by
  have hzero : w = 0 ↔ w.toNat = 0 := BitVec.toNat_eq
  rw [hzero]
  constructor
  · intro hnone
    by_contra hlegal
    exact decodeCommand_ne_none_of_range (by omega) (by omega) hnone
  · intro hillegal
    cases hd : decodeCommand w with
    | none => rfl
    | some i =>
      obtain ⟨hi, rfl⟩ := eq_commandWord_of_decodeCommand hd
      have := commandWord_toNat_range hi
      omega

/-- Settles O3: the map of R83 read backwards, and the words that are left. -/
theorem decodeCommandIsTheOpcodeMap : Obligations.DecodeCommandIsTheOpcodeMap := by
  intro w
  have hword {i : Instr} (hi : i.IsCommand) : decodeCommand w = some i ↔ w = commandWord i := by
    rw [decodeCommand_eq_some_iff, and_iff_right hi]
  refine ⟨hword ?_, hword ?_, hword ?_, hword ?_, hword ?_, hword ?_, hword ?_, hword ?_, decodeCommand_eq_none_iff w⟩ <;>
    simp [Instr.IsCommand]

end Sys2Proof.Machine
end

section
/-! Decode and encode (R80, R83, R86): a frame's bytes hold its number, and each field is a digit of that number. -/

namespace Sys2Proof.Machine

/-- Eight bytes are a command word (R81). -/
theorem decode_leBytes_eight {w : Word} {i : Instr} (h : decodeCommand w = some i) :
    decode (leBytes 8 w.toNat) = .ok i := by
  have hvalue : BitVec.ofNat 64 (leValue (leBytes 8 w.toNat)) = w := by
    rw [leValue_leBytes, show 256 ^ 8 = 2 ^ 64 from rfl, Nat.mod_eq_of_lt w.isLt, BitVec.ofNat_toNat,
      BitVec.setWidth_eq]
  rw [decode, if_pos (leBytes_length 8 _), hvalue, h]

/-- Nine bytes are a host transaction (R86). -/
theorem decode_leBytes_nine {v : Nat} (hv : v < 2 ^ 69) : decode (leBytes 9 v) = decodeBus v := by
  have hvalue : leValue (leBytes 9 v) = v := by
    rw [leValue_leBytes, Nat.mod_eq_of_lt (hv.trans (by decide))]
  rw [decode, leBytes_length, hvalue]
  rfl

theorem decodeBus_read {idx : Nat} (h : idx < 16) : decodeBus (2 * idx) = .ok (.rd idx) := by
  have hreserved : 2 * idx / 2 ^ 69 = 0 := by omega
  have hwe : 2 * idx % 2 = 0 := by omega
  have hidx : 2 * idx / 2 % 16 = idx := by omega
  rw [decodeBus, if_neg (not_not.mpr hreserved), if_pos hwe, hidx]

theorem decodeBus_write {idx : Nat} (data : Word) (h : idx < 16) :
    decodeBus (1 + 2 * idx + 32 * data.toNat) = .ok (.wr idx data) := by
  have hlt := data.isLt
  have hreserved : (1 + 2 * idx + 32 * data.toNat) / 2 ^ 69 = 0 := by omega
  have hwe : (1 + 2 * idx + 32 * data.toNat) % 2 ≠ 0 := by omega
  have hidx : (1 + 2 * idx + 32 * data.toNat) / 2 % 16 = idx := by omega
  have hdata : (1 + 2 * idx + 32 * data.toNat) / 32 = data.toNat := by omega
  rw [decodeBus, if_neg (not_not.mpr hreserved), if_neg hwe, hidx, hdata, BitVec.ofNat_toNat, BitVec.setWidth_eq]

/-- A command is encoded as its word. -/
theorem encode_command {i : Instr} (hi : i.IsCommand) : encode i = leBytes 8 (commandWord i).toNat := by
  rcases hi with rfl | rfl | rfl | rfl | rfl | rfl | rfl | rfl <;> rfl

theorem decode_encode_command {i : Instr} (hi : i.IsCommand) : decode (encode i) = .ok i := by
  rw [encode_command hi, decode_leBytes_eight (decodeCommand_commandWord i hi)]

/-- Settles O2: a transaction's fields are read off its number, a command's word is its own. -/
theorem decodeAfterEncode : Obligations.DecodeAfterEncode := by
  intro i hwf
  cases i with
  | rd idx =>
    have hidx : idx < 16 := of_decide_eq_true hwf
    rw [encode, decode_leBytes_nine (by omega), decodeBus_read hidx]
  | wr idx data =>
    have hidx : idx < 16 := of_decide_eq_true hwf
    have hlt := data.isLt
    rw [encode, decode_leBytes_nine (by omega), decodeBus_write data hidx]
  | _ => exact decode_encode_command (by simp [Instr.IsCommand])

/-- Settles O1: each frame is evaluated. -/
theorem wordsOfTheTableDecode : Obligations.WordsOfTheTableDecode :=
  ⟨rfl, rfl, rfl, rfl, rfl, rfl, rfl, rfl⟩

end Sys2Proof.Machine
end

section
/-! A word the block does not run (R85, R88, R183, R185): an illegal one, and a command that is ignored, dropped or
rejected. -/

namespace Sys2Proof.Machine

/-- Settles O10: the first check of R183 after BUSY rejects the word. -/
theorem illegalWordIsRejected : Obligations.IllegalWordIsRejected := by
  intro s w hreset hbusy hw
  have haccept : s.accept w = s.reject .illegalCommand w := by
    simp [State.accept, hbusy, (decodeCommand_eq_none_iff w).mpr hw]
  rw [exec_wr_cmd s w hreset, haccept]
  rfl

/-- A command alone whose write leaves nothing to run is that write (R88). -/
theorem State.runCommand_eq_hostWrite (s : State) (w : Word)
    (h : s.resetAsserted = false → s.regs.busy = false → (s.hostWrite 0 w).regs.busy = false) :
    s.runCommand w = s.hostWrite 0 w := by
  unfold State.runCommand
  split
  · rfl
  · next hidle =>
    simp only [Bool.or_eq_true, not_or, Bool.not_eq_true] at hidle
    exact State.runToEnd_idle _ _ (h hidle.1 hidle.2)

/-- A command that fails a check of R183 leaves BUSY 0. -/
theorem State.accept_busy_of_fails {s : State} {i : Instr} (hi : i.IsCommand) (hbusy : s.regs.busy = false)
    (h : s.regs.phase = .released ∨ ¬s.Meets i) : (s.accept (commandWord i)).regs.busy = false := by
  rcases s.accept_cases (commandWord i) with ⟨hb, -⟩ | ⟨-, -, hout⟩ | ⟨j, -, hj, hout⟩
  · exact absurd (hbusy.symm.trans hb) (by decide)
  · rw [hout, State.reject_regs, hbusy]
  · rw [decodeCommand_commandWord i hi] at hj
    cases hj
    rcases hout with ⟨-, hout⟩ | ⟨-, -, -, hout⟩ | ⟨-, -, -, hout⟩ | ⟨hphase, hmeets, -⟩
    · rw [hout, State.reject_regs, hbusy]
    · rw [hout, State.reject_regs, hbusy]
    · rw [hout, State.reject_regs, hbusy]
    · exact absurd h (by simp [hphase, hmeets])

/-- Settles O9: where reset and BUSY let the command in, a check fails and its write leaves BUSY 0. -/
theorem commandAloneThatDoesNotStartIsItsWrite : Obligations.CommandAloneThatDoesNotStartIsItsWrite := by
  intro s i hi h
  rw [exec_command i hi, s.runCommand_eq_hostWrite]
  · rfl
  · intro hreset hbusy
    have hfails : s.regs.phase = .released ∨ ¬s.Meets i := by simpa [hreset, hbusy] using h
    simpa [State.regWrite, hreset] using State.accept_busy_of_fails hi hbusy hfails

end Sys2Proof.Machine
end

section
/-! The word withFetchWord presents (R86, log entry 9). -/

namespace Sys2Proof.Machine

/-- A state made ready takes a command word: it is neither ignored nor dropped. -/
theorem State.readyForCommand_takes (s : State) :
    s.readyForCommand.resetAsserted = false ∧ s.readyForCommand.regs.busy = false := by
  unfold State.readyForCommand
  split
  · exact ⟨rfl, rfl⟩
  · next hready => simpa using hready

theorem decode_of_decodeTableWord {nbits w : Nat} {i : Instr} (h : decodeTableWord nbits w = some i) :
    decode (tableBytes nbits w) = .ok i := by
  unfold decodeTableWord at h
  split at h
  · next hok => rw [hok, Option.some.inj h]
  · cases h

/-- Settles O49: the presented frame stands first on the agenda, so the step runs what it decodes to. -/
theorem presentedWordRunsNext : Obligations.PresentedWordRunsNext := by
  intro s nbits w i hi
  exact ⟨stepRunsTheDecodedInstruction _ _ _ i rfl (decode_of_decodeTableWord hi), s.readyForCommand_takes⟩

end Sys2Proof.Machine
end

section
/-! How a command that runs ends (R104, R212, R213): by its `complete`, or by a timing violation. -/

namespace Sys2Proof.Machine

/-- The opcodes of the commands differ (R83), since each word decodes to its own command. -/
theorem opcode_eq_iff {i j : Instr} (hi : i.IsCommand) (hj : j.IsCommand) : opcode i = opcode j ↔ i = j := by
  refine ⟨fun h => ?_, congrArg opcode⟩
  have hword : commandWord i = commandWord j := by rw [commandWord, h, commandWord]
  have hdecode := decodeCommand_commandWord j hj
  rw [← hword, decodeCommand_commandWord i hi] at hdecode
  exact Option.some.inj hdecode

theorem opcode_eq_calibrate_iff {i : Instr} (hi : i.IsCommand) : opcode i = opcode .calibrate ↔ i = .calibrate :=
  opcode_eq_iff hi (.inr (.inl rfl))

theorem opcode_eq_release_iff {i : Instr} (hi : i.IsCommand) : opcode i = opcode .release ↔ i = .release :=
  opcode_eq_iff hi (by simp [Instr.IsCommand])

/-- A command that completes ends IDLE with OK, and such a CALIBRATE has passed and clears VIOL (R28, R32, R212). -/
theorem terminateRegs_ok (r : Regs) {i : Instr} (hi : i.IsCommand) (hrel : i ≠ .release) :
    terminateRegs r (opcode i) .ok 0 =
      { r with
        phase := .idle, viol := if i = .calibrate then false else r.viol
        cal := if i = .calibrate then .passed else r.cal, err := .ok, errinfo := 0, busy := false } := by
  simp [terminateRegs, violAfter, calOutcomeOf, ResultCode.isViolation, opcode_eq_calibrate_iff hi,
    opcode_eq_release_iff hi, hrel]

/-- A command that a violation ends tells it in ERR and ERRINFO and sets VIOL; a CALIBRATE is aborted (R28, R125). -/
theorem terminateRegs_violation (r : Regs) {i : Instr} (hi : i.IsCommand) (hrel : i ≠ .release) (h : Word) :
    terminateRegs r (opcode i) (violationCode h) h =
      { r with
        phase := .idle, viol := true, cal := if i = .calibrate then .aborted else r.cal
        err := violationCode h, errinfo := h, busy := false } := by
  obtain ⟨hviol, hok, hcal, -⟩ := violationCode_spec h
  simp [terminateRegs, violAfter, calOutcomeOf, hviol, hok, hcal, opcode_eq_calibrate_iff hi,
    opcode_eq_release_iff hi, hrel]

section
variable {s t : State} {i : Instr} (ha : s.Accepting) (hi : i.IsCommand) (hrel : i ≠ .release) (hm : s.Meets i)
  (n : Nat) (hn : n ≤ commandBound) (hkeeps : (s.start i).observe.latches.Keeps t.latches)
include ha hi hrel hm hn hkeeps

/-- A command whose run comes to its `complete` (R212). -/
theorem exec_of_complete (hrun : (s.start i).observe.runToEnd n = t.terminate .ok 0) :
    exec i s = .next { t with
      regs := { t.regs with
        phase := .idle, viol := if i = .calibrate then false else t.regs.viol
        cal := if i = .calibrate then .passed else t.regs.cal, err := .ok, errinfo := 0, busy := false }
      todo := [] } := by
  have hcmd : t.latches.cmdL.value = opcode i := congrArg Latch.value hkeeps.cmdL
  rw [exec_of_run s _ i ha hi hm n hrun rfl hn, State.terminate, hcmd, terminateRegs_ok t.regs hi hrel]
  simp [failureEvents]

/-- A command whose run a violation ends (R104, R213): nothing follows but the violation's code, VIOL and its event. -/
theorem exec_of_violation {h : Word} (hrun : (s.start i).observe.runToEnd n = t.terminate (violationCode h) h) :
    exec i s = .next { t with
      regs := { t.regs with
        phase := .idle, viol := true, cal := if i = .calibrate then .aborted else t.regs.cal
        err := violationCode h, errinfo := h, busy := false }
      todo := []
      obs := { t.obs with events := t.obs.events ++ [violationEvent h] } } := by
  have hcmd : t.latches.cmdL.value = opcode i := congrArg Latch.value hkeeps.cmdL
  obtain ⟨-, -, -, hevents⟩ := violationCode_spec h
  rw [exec_of_run s _ i ha hi hm n hrun rfl hn, State.terminate, hcmd, terminateRegs_violation t.regs hi hrel, hevents]
  rfl

end

end Sys2Proof.Machine
end

section
/-! PULSE (R103 to R105): its one pulse passes its validation, or violates. -/

namespace Sys2Proof.Machine

/-- A pulse that passes its validation: PULSE comes to its `complete`. -/
theorem State.run_pulseProgram_pass (s : State) (hr : s.resetAsserted = false) (hb : s.regs.busy = true)
    (hv : ValidHigh (s.env.highAt 0)) :
    ∃ l, s.latches.Keeps l ∧
      { s with todo := pulseProgram }.runToEnd 10 =
        ((s.inPhase .pulsing).ran 1 0 (s.env.pulseTrace 0) l).terminate .ok 0 := by
  refine ⟨s.latches.measured (s.env.readingAt 0) (s.env.readingAt 1), ⟨rfl, rfl, rfl⟩, ?_⟩
  have hpulse := (s.inPhase .pulsing).run_pulse_only 0 0 [] s.latches [.complete] 1 hr hb hv
  have hcomplete := State.run_op ((s.inPhase .pulsing).ran 1 0 (s.env.pulseTrace 0)
    (s.latches.measured (s.env.readingAt 0) (s.env.readingAt 1))) .complete [] 0 hr hb
  exact ((s.run_setPhase .pulsing _ 9 hr hb).trans hpulse).trans hcomplete

/-- A pulse that violates: PULSE ends there (R104). -/
theorem State.run_pulseProgram_violation (s : State) (hr : s.resetAsserted = false) (hb : s.regs.busy = true)
    (hx : ¬ValidHigh (s.env.highAt 0)) :
    ∃ l, s.latches.Keeps l ∧
      { s with todo := pulseProgram }.runToEnd 10 =
        ((s.inPhase .pulsing).ran 1 0 (s.env.pulseTrace 0) l).terminate
          (violationCode (s.env.highAt 0)) (s.env.highAt 0) := by
  refine ⟨s.latches.measured (s.env.readingAt 0) (s.env.readingAt 1), ⟨rfl, rfl, rfl⟩, ?_⟩
  have hpulse := (s.inPhase .pulsing).run_pulse_only_violation 0 0 [] s.latches [.complete] 1 hr hb hx
  exact (s.run_setPhase .pulsing _ 9 hr hb).trans hpulse

/-- Settles O15: the pulse passes its validation, so PULSE completes with OK. -/
theorem pulseInTheWindowCompletes : Obligations.PulseInTheWindowCompletes := by
  intro s ha hv
  obtain ⟨l, hl, hrun⟩ := (s.start .pulse).observe.run_pulseProgram_pass ha.1 rfl hv
  have hexec := exec_of_complete ha (.inl rfl) nofun (s.meets_of_ne _ nofun nofun) 10 (by decide) hl hrun
  refine ⟨l, hl.conf, hexec.trans ?_⟩
  simp [ha.2.1, State.ran, State.inPhase]

/-- Which bound a high time outside the window missed (R103), as its event tells it. -/
def violationKind (h : Word) : ViolationKind := if h.toNat < Config.tHighMinNs then .tooShort else .tooLong

theorem violationEvent_eq (h : Word) : violationEvent h = .timingViolation (violationKind h) h := rfl

theorem violation_of_low {h : Word} (hlow : h.toNat < 100) :
    violationCode h = .timingTooShort ∧ violationKind h = .tooShort :=
  ⟨if_pos hlow, if_pos hlow⟩

theorem violation_of_high {h : Word} (hhigh : 20000 < h.toNat) :
    violationCode h = .timingTooLong ∧ violationKind h = .tooLong := by
  have hlow : ¬h.toNat < Config.tHighMinNs := by simp only [Config.tHighMinNs]; omega
  exact ⟨if_neg hlow, if_neg hlow⟩

/-- Settles O16: the pulse fails its validation, which ends PULSE; the bound it missed decides the code and the kind. -/
theorem pulseOutsideTheWindowViolates : Obligations.PulseOutsideTheWindowViolates := by
  intro s ha hout
  have hx : ¬ValidHigh (s.env.highAt 0) := fun ⟨hmin, hmax⟩ => by
    simp only [Config.tHighMinNs, Config.tHighMaxNs] at hmin hmax
    omega
  obtain ⟨l, hl, hrun⟩ := (s.start .pulse).observe.run_pulseProgram_violation ha.1 rfl hx
  have hexec := exec_of_violation ha (.inl rfl) nofun (s.meets_of_ne _ nofun nofun) 10 (by decide) hl hrun
  refine ⟨l, violationCode (s.env.highAt 0), violationKind (s.env.highAt 0), hl.conf, violation_of_low,
    violation_of_high, hexec.trans ?_⟩
  simp [ha.2.1, State.ran, State.inPhase, violationEvent_eq]

end Sys2Proof.Machine
end

section
/-! CALIBRATE and the acquisitions that a violation ends (R104, R125, R213): their runs are ended by it, as PULSE's. -/

namespace Sys2Proof.Machine

/-- Settles O19: the first violation ends the calibration's run, and with it CALIBRATE, which is then aborted. -/
theorem calibrationAbortsOnViolation : Obligations.CalibrationAbortsOnViolation := by
  intro s n ha hn hv hx hd
  obtain ⟨l, hl, hrun⟩ := (s.start .calibrate).observe.run_cal_violation ha.1 rfl n hn hv hx hd
  have hexec := exec_of_violation ha (.inr (.inl rfl)) nofun (s.meets_of_ne _ nofun nofun) 244 (by decide) hl hrun
  refine ⟨l, hl.conf, hexec.trans ?_⟩
  simp [ha.2.1, State.ran, State.inPhase]

/-- A host transaction, CALIBRATE and RELEASE do not acquire (R131). -/
theorem isCommand_of_acquires {i : Instr} (hi : i.Acquires) : i.IsCommand ∧ i ≠ .calibrate ∧ i ≠ .release := by
  rcases hi with rfl | rfl | rfl | rfl <;> simp [Instr.IsCommand]

/-- A command that acquires begins with the acquisition, whatever follows (R134, R160, R162, R164). -/
theorem exists_programOf_eq_acquireThen {i : Instr} (hi : i.Acquires) : ∃ rest, programOf i = acquireThen rest := by
  rcases hi with rfl | rfl | rfl | rfl <;> exact ⟨_, rfl⟩

/-- Settles O23: the first violation ends the acquisition's run, so that what follows it in the command never runs. -/
theorem acquisitionAbortsOnViolation : Obligations.AcquisitionAbortsOnViolation := by
  intro s i q n ha hi hm hq hd hn hv hx
  obtain ⟨hcommand, hcal, hrel⟩ := isCommand_of_acquires hi
  obtain ⟨rest, hprogram⟩ := exists_programOf_eq_acquireThen hi
  have hstart : { (s.start i).observe with todo := acquireThen rest } = (s.start i).observe := by rw [← hprogram]; rfl
  obtain ⟨l, hl, hrun⟩ := (s.start i).observe.run_acquire_violation ha.1 rfl q n 0 rest hq hd hn hv hx
  rw [hstart] at hrun
  have hbound : 0 + 5 * q + 230 ≤ commandBound := by
    have : commandBound = 1081 := rfl
    omega
  have hexec := exec_of_violation ha hcommand hrel hm _ hbound hl hrun
  refine ⟨l, hl.conf, hexec.trans ?_⟩
  simp [ha.2.1, hcal]

end Sys2Proof.Machine
end

section
/-! CALIBRATE that no violation ends (R121 to R124): it passes, or its first check that reads 0 ends it. -/

namespace Sys2Proof.Machine

/-- Settles O17: the calibration's run comes to its `complete`, so CALIBRATE passes and clears VIOL. -/
theorem calibrationPasses : Obligations.CalibrationPasses := by
  intro s ha hv hd
  obtain ⟨l, hl, hrun⟩ := (s.start .calibrate).observe.run_cal_pass ha.1 rfl hv hd
  have hexec := exec_of_complete ha (.inr (.inl rfl)) nofun (s.meets_of_ne _ nofun nofun) 244 (by decide) hl hrun
  refine ⟨l, hl.conf, hexec.trans ?_⟩
  simp [ha.2.1, State.ran, State.inPhase]

/-- A calibration that a check ends has failed; a failed check is no violation, so VIOL is kept (R28, R124, R212). -/
theorem terminateRegs_checkFailed (r : Regs) (info : Word) :
    terminateRegs r (opcode .calibrate) .calibrationFailed info =
      { r with
        phase := .idle, cal := .failed, err := .calibrationFailed, errinfo := info, busy := false } := by
  have hrelease : opcode .calibrate ≠ opcode .release := by decide
  simp [terminateRegs, violAfter, calOutcomeOf, ResultCode.isViolation, hrelease]

/-- Settles O18: the first check that reads 0 ends the calibration's run, and with it CALIBRATE, which has failed. -/
theorem calibrationCheckFails : Obligations.CalibrationCheckFails := by
  intro s j ha hj hv hd h0
  obtain ⟨l, hl, hrun⟩ := (s.start .calibrate).observe.run_cal_fail ha.1 rfl j hj hv hd h0
  have hcmd : l.cmdL.value = opcode .calibrate := congrArg Latch.value hl.cmdL
  have hpulses : 23 + j = 22 + j + 1 := by omega
  refine ⟨l, hl.conf, ?_⟩
  rw [exec_of_run s _ .calibrate ha (.inr (.inl rfl)) (s.meets_of_ne _ nofun nofun) 244 hrun rfl (by decide),
    State.terminate]
  simp [hcmd, hpulses, terminateRegs_checkFailed, failureEvents, ha.2.1, State.ran, State.inPhase]

end Sys2Proof.Machine
end

section
/-! IS_READY, and a MEASURE_RAW that gets its sample (R126, R134): nothing after the last read can fail, so each comes to
its `complete`. -/

namespace Sys2Proof.Machine

/-- IS_READY reads the line once and, whatever it reads, comes to its `complete` with READY written (R126). -/
theorem State.run_isReadyProgram (s : State) (hr : s.resetAsserted = false) (hb : s.regs.busy = true) :
    ∃ l, s.latches.Keeps l ∧
      { s with todo := isReadyProgram }.runToEnd 3 =
        (State.ran { s with regs := { s.regs with phase := .sampling, ready := !s.env.levelAt 0 } }
          0 1 [.readData (s.env.levelAt 0)] l).terminate .ok 0 := by
  refine ⟨{ s.latches with d := .of (s.env.levelAt 0) }, ⟨rfl, rfl, rfl⟩, ?_⟩
  have hread := (s.inPhase .sampling).run_read 0 0 [] s.latches [.completeReady] 1 hr hb
  have hcomplete := State.run_op ((s.inPhase .sampling).ran 0 1 [.readData (s.env.levelAt 0)]
    { s.latches with d := .of (s.env.levelAt 0) }) .completeReady [] 0 hr hb
  exact ((s.run_setPhase .sampling _ 2 hr hb).trans hread).trans hcomplete

/-- Settles O20: the one read decides READY, and IS_READY completes with OK. -/
theorem isReadySamplesTheLine : Obligations.IsReadySamplesTheLine := by
  intro s ha
  obtain ⟨l, hl, hrun⟩ := (s.start .isReady).observe.run_isReadyProgram ha.1 rfl
  have hexec := exec_of_complete ha (.inr (.inr (.inl rfl))) nofun (s.meets_of_ne _ nofun nofun) 3 (by decide) hl hrun
  refine ⟨l, hl.conf, hexec.trans ?_⟩
  simp [ha.2.1, State.ran]

/-- A run that has come to its `complete` ends there (R212). -/
theorem State.run_complete (s : State) (n : Nat) (ht : s.todo = [.complete]) (hr : s.resetAsserted = false)
    (hb : s.regs.busy = true) : s.runToEnd (n + 1) = s.terminate .ok 0 := by
  rw [s.run_head .complete [] n ht hr hb, State.runToEnd_idle _ _ rfl]
  rfl

/-- Settles O21: the acquisition publishes its sample, and `complete` is all that follows it in MEASURE_RAW. -/
theorem measureRawCompletes : Obligations.MeasureRawCompletes := by
  intro s q ha hq hd hv
  obtain ⟨l, hl, -, hrun⟩ := (s.start .measureRaw).observe.run_acquire ha.1 rfl q 1 [.complete] hq hd hv
  have hbound : 1 + 5 * q + 230 ≤ commandBound := by
    have : commandBound = 1081 := rfl
    omega
  have hexec := exec_of_complete ha (isCommand_of_acquires (.inl rfl)).1 nofun (s.meets_of_ne _ nofun nofun) _ hbound hl
    (hrun.trans (State.run_complete _ 0 rfl ha.1 rfl))
  refine ⟨l, hl.conf, hexec.trans ?_⟩
  simp [ha.2.1, decode20_eq_toInt]

end Sys2Proof.Machine
end

section
/-! The decoder and its inverse (R130): two's complement both ways, in 20 bits and in the 64 of RAW and ZERO. -/

namespace Sys2Proof.Machine

/-- Every integer in [RAW_MIN, RAW_MAX] is the value of its residue modulo 2^20 (R10, R130). -/
theorem toInt_ofInt_sample {s : Int} (hmin : Config.rawMin ≤ s) (hmax : s ≤ Config.rawMax) :
    (BitVec.ofInt Config.nBits s).toInt = s :=
  BitVec.toInt_ofInt_eq_self (by decide) hmin (Int.lt_add_one_of_le hmax)

/-- Settles O50: the decoder is `BitVec.toInt`, which `BitVec.ofInt` inverts and sign extension keeps. -/
theorem decode20IsTwosComplement : Obligations.Decode20IsTwosComplement := by
  refine ⟨fun v => ?_, fun s hmin hmax => ?_⟩
  · obtain ⟨hmin, hmax⟩ := sample_toInt_range v
    rw [decode20_eq_toInt]
    exact ⟨rfl, hmin, hmax, BitVec.ofInt_toInt, BitVec.toInt_signExtend_of_le (by decide)⟩
  · have hvalue := toInt_ofInt_sample hmin hmax
    exact ⟨(decode20_eq_toInt _).trans hvalue, (BitVec.toInt_signExtend_of_le (by decide)).trans hvalue⟩

end Sys2Proof.Machine
end

section
/-! The scaler's arithmetic on exceptional operands (R152, R155, R158), and its two roundings (R154). -/

namespace Sys2Proof.Machine

/-- A quotient whose numerator is finite is a zero where the denominator is an infinity, or where the numerator is a
zero and the denominator is neither a zero nor a NaN (R155). -/
theorem fpDiv_eq_zero {a b : Word} (ha : fpIsFinite a = true) (hb : fpIsNaN b = false)
    (hzero : fpIsInf b = true ∨ fpIsZero a = true ∧ fpIsZero b = false) :
    fpDiv a b = fpPack (fpSign a != fpSign b) 0 := by
  obtain ⟨hnan, hinf⟩ := fpIsFinite_spec a ha
  rcases hzero with hb' | ⟨ha0, hb0⟩
  · simp [fpDiv, hnan, hinf, hb, hb']
  · simp [fpDiv, hnan, hinf, hb, ha0, hb0]

theorem fpDiv_nan (a : Word) {b : Word} (hb : fpIsNaN b = true) : fpDiv a b = canonicalNaN := by
  simp [fpDiv, hb]

theorem fpIsNaN_of_isInf {a : Word} (h : fpIsInf a = true) : fpIsNaN a = false := by
  simp only [fpIsInf, Bool.and_eq_true, decide_eq_true_eq] at h
  simp [fpIsNaN, h.2]

/-- Both zeros are stored as they are (R152). -/
theorem canon_fpPack_zero (sign : Bool) :
    canon (fpPack sign 0) = if sign then 0x8000000000000000 else 0 := by
  cases sign <;> decide

/-- A NaN that `canon` leaves is the canonical one (R152). -/
theorem canon_eq_of_isNaN {a : Word} (h : fpIsNaN (canon a) = true) : canon a = canonicalNaN := by
  cases hnan : fpIsNaN a with
  | true => simp [canon, hnan]
  | false => simp [canon, hnan] at h

/-- A reading whose quotient is a zero is that zero, with the sign of the quotient (R155). -/
theorem readingOf_eq_zero {d : Int} {u : Word} (hd : d.natAbs < 2 ^ 53) (hu : fpIsNaN u = false)
    (hzero : fpIsInf u = true ∨ d = 0 ∧ fpIsZero u = false) :
    readingOf d u = if decide (d < 0) != fpSign u then 0x8000000000000000 else 0 := by
  obtain ⟨hfinite, -, hsign⟩ := integersConvertExactly d hd
  have hquotient := fpDiv_eq_zero hfinite hu (hzero.imp_right fun ⟨hd0, hu0⟩ => ⟨by rw [hd0]; rfl, hu0⟩)
  rw [readingOf, hquotient, hsign, canon_fpPack_zero]

/-- Settles O55: the quotient is a zero, or the canonical NaN, before it is rounded. -/
theorem readingsWithExceptionalOperands : Obligations.ReadingsWithExceptionalOperands := by
  refine fun d u => ⟨fun hnan hu0 => ?_, fun hinf _ hd => ?_, fun hnan => ?_⟩
  · simpa using readingOf_eq_zero (d := 0) (by decide) hnan (.inr ⟨rfl, hu0⟩)
  · exact readingOf_eq_zero hd (fpIsNaN_of_isInf hinf) (.inl hinf)
  · rw [readingOf, fpDiv_nan _ hnan]
    decide

/-- Settles O56: both results have passed `canon`. -/
theorem onlyTheCanonicalNaNIsStored : Obligations.OnlyTheCanonicalNaNIsStored :=
  fun _ _ _ => ⟨canon_eq_of_isNaN, canon_eq_of_isNaN⟩

/-- Settles O57: 1/3.0 is rounded down, and five times that once more; 5/3.0 is rounded up. -/
theorem unitScaleIsRoundedTwice : Obligations.UnitScaleIsRoundedTwice := by
  have hfive : fpFromInt 5 = 0x4014000000000000 := by decide +kernel
  have hreciprocal : fpDiv 0x3FF0000000000000 0x4008000000000000 = 0x3FD5555555555555 := by decide +kernel
  have hproduct : canon (fpMul 0x4014000000000000 0x3FD5555555555555) = 0x3FFAAAAAAAAAAAAA := by decide +kernel
  have hquotient : fpDiv 0x4014000000000000 0x4008000000000000 = 0x3FFAAAAAAAAAAAAB := by decide +kernel
  refine ⟨?_, ?_⟩
  · rw [unitOf, hfive, hreciprocal, hproduct]
  · rw [hfive, hquotient]

end Sys2Proof.Machine
end

section
/-! CAL_ZERO, CAL_UNIT and MEASURE that get their sample (R160, R162, R164): each is the acquisition, and then the one
register that its last micro-step writes with its `complete`. -/

namespace Sys2Proof.Machine

/-- `s` after an acquisition that was ready at attempt `q + 1` and got its sample (R131), its command still running. -/
def State.acquired (s : State) (q : Nat) (l : Latches) : State :=
  { s with
    regs := { s.regs with
      phase := .reading
      raw := (s.env.patternAt (q + 1) 20).signExtend 64
      rawbits := (s.env.patternAt (q + 1) 20).setWidth 64
      pulses := s.regs.pulses + 20
      polls := BitVec.ofNat 64 (q + 1)
      hightime := s.env.highAt 19 }
    latches := l
    sclk := .low
    env := s.env.after (q + 21) 40
    obs := { s.obs with
      trace := s.obs.trace ++ (s.env.pollTrace (q + 1) ++ s.env.bitTrace (q + 1) 20)
      events := s.obs.events ++ [.sample (s.env.patternAt (q + 1) 20) (s.env.patternAt (q + 1) 20).toInt] } }

@[simp] theorem State.acquired_latches (s : State) (q : Nat) (l : Latches) : (s.acquired q l).latches = l := rfl

/-- The acquisition's run comes to `State.acquired`, with the rest of its command due. -/
theorem State.run_to_acquired (s : State) (hr : s.resetAsserted = false) (hb : s.regs.busy = true) (q m : Nat)
    (rest : List MicroOp) (hq : q < 171) (hd : s.env.ReadyAfter q) (hv : ∀ i < 20, ValidHigh (s.env.highAt i)) :
    ∃ l, s.latches.Keeps l ∧ l.acc.value = s.env.patternAt (q + 1) 20 ∧
      { s with todo := acquireThen rest }.runToEnd (m + 5 * q + 230) =
        { s.acquired q l with todo := rest }.runToEnd m := by
  obtain ⟨l, hl, hacc, hrun⟩ := s.run_acquire hr hb q m rest hq hd hv
  rw [decode20_eq_toInt] at hrun
  exact ⟨l, hl, hacc, hrun⟩

/-- A command that gets its sample and whose last micro-step `op` writes some registers with its `complete`: what it
leaves is what the acquisition leaves, with these registers written, IDLE and OK. -/
theorem exec_of_acquired {s : State} {i : Instr} {q : Nat} (op : MicroOp) (write : Latches → Regs → Regs)
    (hi : i.Acquires) (hprogram : programOf i = acquireThen [op])
    (hop : ∀ t : State, t.runOp op = { t with regs := write t.latches t.regs }.terminate .ok 0)
    (ha : s.Accepting) (hm : s.Meets i) (hq : q < 171) (hd : s.env.ReadyAfter q)
    (hv : ∀ j < 20, ValidHigh (s.env.highAt j)) :
    ∃ l : Latches, (s.start i).latches.Keeps l ∧ l.acc.value = s.env.patternAt (q + 1) 20 ∧
      exec i s = .next { (s.start i).observe.acquired q l with
        regs := { write l ((s.start i).observe.acquired q l).regs with
          phase := .idle, err := .ok, errinfo := 0, busy := false }
        todo := [] } := by
  obtain ⟨hcommand, hcal, hrel⟩ := isCommand_of_acquires hi
  obtain ⟨l, hl, hacc, hrun⟩ := (s.start i).observe.run_to_acquired ha.1 rfl q 1 [op] hq hd hv
  have hstart : { (s.start i).observe with todo := acquireThen [op] } = (s.start i).observe := by rw [← hprogram]; rfl
  have hlast := State.run_op ((s.start i).observe.acquired q l) op [] 0 ha.1 rfl
  rw [hstart] at hrun
  rw [hop] at hlast
  have hbound : 1 + 5 * q + 230 ≤ commandBound := by
    have : commandBound = 1081 := rfl
    omega
  have hexec := exec_of_complete ha hcommand hrel hm _ hbound hl (hrun.trans hlast)
  refine ⟨l, hl, hacc, hexec.trans ?_⟩
  simp [hcal]

/-- Settles O24: ZERO is written with the pattern whose value the sample is. -/
theorem calZeroStoresTheSample : Obligations.CalZeroStoresTheSample := by
  intro s q ha hq hd hv
  obtain ⟨l, hl, hacc, hexec⟩ := exec_of_acquired .completeZero
    (fun l r => { r with zero := zeroOf (decode20 l.acc.value) }) (.inr (.inl rfl)) rfl (fun _ => rfl)
    ha (s.meets_of_ne _ nofun nofun) hq hd hv
  refine ⟨l, hl.conf, hexec.trans ?_⟩
  simp [State.acquired, ha.2.1, hacc, zeroOf, decode20_eq_toInt]

/-- Settles O25: UNIT is written from the latched fraction, which is FRACTION as CAL_UNIT found it. -/
theorem calUnitStoresTheScale : Obligations.CalUnitStoresTheScale := by
  intro s q ha hm hq hd hv
  obtain ⟨l, hl, hacc, hexec⟩ := exec_of_acquired .completeUnit
    (fun l r => { r with unit := unitOf (sampleDifference (decode20 l.acc.value) r.zero) l.fracL.value })
    (.inr (.inr (.inl rfl))) rfl (fun _ => rfl) ha hm hq hd hv
  have hfraction : l.fracL.value = s.regs.fraction := congrArg Latch.value hl.fracL
  refine ⟨l, hl.conf, hexec.trans ?_⟩
  simp [State.acquired, ha.2.1, hacc, hfraction, unitOf, sampleDifference, decode20_eq_toInt]

/-- Settles O26: RESULT is written from ZERO and UNIT, which the acquisition keeps. -/
theorem measureStoresTheReading : Obligations.MeasureStoresTheReading := by
  intro s q ha hm hq hd hv
  obtain ⟨l, hl, hacc, hexec⟩ := exec_of_acquired .completeMeasure
    (fun l r => { r with result := readingOf (sampleDifference (decode20 l.acc.value) r.zero) r.unit })
    (.inr (.inr (.inr rfl))) rfl (fun _ => rfl) ha hm hq hd hv
  refine ⟨l, hl.conf, hexec.trans ?_⟩
  simp [State.acquired, ha.2.1, hacc, readingOf, sampleDifference, decode20_eq_toInt]

end Sys2Proof.Machine
end

section
/-! The teardown of a construction (R190, R191): only a RELEASE just begun holds one, and it leaves nothing to run but the
end that makes the block RELEASED. -/

namespace Sys2Proof.Machine

theorem plain_loopOps (body : Nat → List MicroOp) (h : ∀ k, (body k).all MicroOp.plain = true) (n start : Nat) :
    (loopOps body n start).all MicroOp.plain = true :=
  List.all_eq_true.mpr (forall_mem_loopOps _ body (fun k => List.all_eq_true.mp (h k)) n start)

theorem plain_calSeq : calSeq.all MicroOp.plain = true := by
  rw [calSeq, List.all_cons, List.all_append, List.all_append, plain_loopOps discardOps fun _ => rfl,
    plain_loopOps checkOps fun _ => rfl]
  rfl

theorem plain_acquireThen {rest : List MicroOp} (h : rest.all MicroOp.plain = true) :
    (acquireThen rest).all MicroOp.plain = true := by
  rw [acquireThen, readSample, List.all_append, List.all_append, List.all_cons, List.all_cons, List.all_cons,
    List.all_cons, plain_loopOps bitOps fun _ => rfl, h]
  rfl

/-- No command but RELEASE configures or releases a pin. -/
theorem plain_programOf {i : Instr} (h : i ≠ .release) : (programOf i).all MicroOp.plain = true := by
  cases i with
  | release => exact absurd rfl h
  | calibrate => exact plain_calSeq
  | measureRaw | calZero | calUnit | measure => exact plain_acquireThen rfl
  | pulse | isReady | rd | wr => rfl

theorem State.doneWhenIdle_of_busy {s : State} (hb : s.regs.busy = true) : s.DoneWhenIdle :=
  fun h => absurd (hb.symm.trans h) (by decide)

/-- A construction with no RELEASE begun: nothing releases the pins, and nothing makes the block RELEASED. -/
def State.Working (s : State) : Prop :=
  s.latches.conf = true ∧ releases s.obs.trace = 0 ∧ s.regs.phase ≠ .released ∧ ¬s.InRelease ∧ s.DoneWhenIdle ∧
    s.todo.all MicroOp.plain = true

theorem State.Working.teardownInv {s : State} (hs : s.Working) : s.TeardownInv := by
  obtain ⟨hconf, hrel, hphase, hcmd, hdone, hplain⟩ := hs
  exact ⟨fun _ => ⟨hrel, hphase, hdone, .inr ⟨hplain, fun h => absurd h hcmd⟩⟩, fun h => by simp [hconf] at h⟩

theorem State.teardownInv_of_torn {s : State} (hconf : s.latches.conf = false)
    (h : s.Constructing ∨ releases s.obs.trace = 1 ∧
      (s.regs.busy = true ∧ s.todo = [.complete] ∧ s.InRelease ∨
        s.regs.busy = false ∧ s.todo = [] ∧ s.regs.phase = .released)) : s.TeardownInv :=
  ⟨fun hconf' => absurd (hconf.symm.trans hconf') Bool.false_ne_true, fun _ => h⟩

/-- A command that is not RELEASE ends IDLE (R212), its construction going on. -/
theorem State.Working.terminate {s : State} (hs : s.Working) (code : ResultCode) (info : Word) :
    (s.terminate code info).Working := by
  obtain ⟨hconf, hrel, -, hcmd, -, -⟩ := hs
  refine ⟨hconf, hrel, ?_, hcmd, fun _ => rfl, rfl⟩
  rw [State.terminate_regs, terminateRegs, if_neg hcmd]
  exact nofun

/-- A plain micro-step of a running sequence leaves the construction going on. -/
theorem State.Working.runOp {s : State} {op : MicroOp} (hs : s.Working) (hb : s.regs.busy = true)
    (hop : op.plain = true) : (s.runOp op).Working := by
  have ⟨hconf, hrel, hphase, hcmd, hdone, hplain⟩ := hs
  refine State.runOp_of_tests State.Working s op hs (hs.terminate · ·) ?poll fun _ => ?other
  case poll => exact ⟨hconf, hrel, hphase, hcmd, State.doneWhenIdle_of_busy hb, hplain⟩
  case other =>
    cases op
    case validate | checkCal | pollTest | configure | setConf | teardown => contradiction
    case complete => exact hs.terminate _ _
    case completeReady | completeZero | completeUnit | completeMeasure =>
      exact State.Working.terminate (s := { s with regs := _ }) hs .ok 0
    case setPhase => exact ⟨hconf, hrel, of_decide_eq_true hop, hcmd, hdone, hplain⟩
    case latchCommand => exact ⟨hconf, hrel, hphase, of_decide_eq_true hop, hdone, hplain⟩
    case driveClk | readT0 | readT1 | readData | sleep =>
      exact ⟨hconf, (releases_append_singleton _ _).trans hrel, hphase, hcmd, hdone, hplain⟩
    all_goals exact hs

/-- The four micro-steps of the start-up up to `conf` (R241): the first begins the count of releases anew, the last
leaves a calibration that latches its own command first. -/
theorem State.Constructing.runOp {s : State} {op : MicroOp} {rest : List MicroOp} (hs : s.Constructing)
    (hconf : s.latches.conf = false) (e : s.todo = op :: rest) : ({ s with todo := rest }.runOp op).TeardownInv := by
  obtain ⟨hb, hphase, ⟨ht, -⟩ | ⟨n, hn, ht, hrel⟩⟩ := hs
  · cases e.symm.trans ht
    exact State.teardownInv_of_torn hconf
      (.inl ⟨hb, hphase, .inr ⟨1, by decide, rfl, releases_append_singleton _ _⟩⟩)
  · simp only [List.mem_cons, List.not_mem_nil, or_false] at hn
    rcases hn with rfl | rfl | rfl <;> cases e.symm.trans ht
    · exact State.teardownInv_of_torn hconf
        (.inl ⟨hb, hphase, .inr ⟨2, by decide, rfl, (releases_append_singleton _ _).trans hrel⟩⟩)
    · exact State.teardownInv_of_torn hconf
        (.inl ⟨hb, hphase, .inr ⟨3, by decide, rfl, (releases_append_singleton _ _).trans hrel⟩⟩)
    · have hplain : (MicroOp.latchCommand (opcode .calibrate) :: calSeq).all MicroOp.plain = true := by
        rw [List.all_cons, plain_calSeq]
        rfl
      exact ⟨fun _ => ⟨hrel, hphase, State.doneWhenIdle_of_busy hb, .inr ⟨hplain, fun _ => rfl⟩⟩, nofun⟩

theorem State.TeardownInv.runOp {s : State} {op : MicroOp} {rest : List MicroOp} (e : s.todo = op :: rest)
    (hs : s.TeardownInv) : ({ s with todo := rest }.runOp op).TeardownInv := by
  obtain ⟨hconstructed, htorn⟩ := hs
  cases hconf : s.latches.conf with
  | true =>
    obtain ⟨hrel, hphase, hdone, hseq⟩ := hconstructed hconf
    have hb : s.regs.busy = true := by
      by_contra hb
      rw [hdone (by simpa using hb)] at e
      cases e
    rcases hseq with ⟨ht, hcmd⟩ | ⟨hplain, hhead⟩
    · -- a RELEASE about to begin: its teardown
      cases e.symm.trans ht
      refine State.teardownInv_of_torn rfl (.inr ⟨?_, .inl ⟨hb, rfl, hcmd⟩⟩)
      exact (releases_append_singleton _ _).trans (congrArg (· + 1) hrel)
    · rw [e, List.all_cons, Bool.and_eq_true] at hplain
      obtain ⟨hop, hrest⟩ := hplain
      have hdone' : { s with todo := rest }.DoneWhenIdle := State.doneWhenIdle_of_busy hb
      by_cases hcmd : s.InRelease
      · -- the start-up's `latchCommand`
        have hlatch := hhead hcmd
        rw [e] at hlatch
        cases hlatch
        have hcmd' : opcode .calibrate ≠ opcode .release := by decide
        exact State.Working.teardownInv ⟨hconf, hrel, hphase, hcmd', hdone', hrest⟩
      · exact (State.Working.runOp (s := { s with todo := rest })
          ⟨hconf, hrel, hphase, hcmd, hdone', hrest⟩ hb hop).teardownInv
  | false =>
    rcases htorn hconf with hcon | ⟨hrel, ⟨-, ht, hcmd⟩ | ⟨-, ht, -⟩⟩
    · exact hcon.runOp hconf e
    · cases e.symm.trans ht
      exact State.teardownInv_of_torn hconf (.inr ⟨hrel, .inr ⟨rfl, rfl, if_pos hcmd⟩⟩)
    · cases e.symm.trans ht

/-- A start finds a construction with no RELEASE begun, and only RELEASE's own start begins one. -/
theorem State.TeardownInv.start {s : State} {i : Instr} (hs : s.TeardownInv) (hi : i.IsCommand)
    (hb : s.regs.busy = false) (hphase : s.regs.phase ≠ .released) : (s.start i).TeardownInv := by
  obtain ⟨hconstructed, htorn⟩ := hs
  cases hconf : s.latches.conf with
  | true =>
    obtain ⟨hrel, -, -, -⟩ := hconstructed hconf
    by_cases hrelease : i = .release
    · subst hrelease
      exact ⟨fun _ => ⟨hrel, hphase, nofun, .inl ⟨rfl, rfl⟩⟩, fun h => absurd (hconf.symm.trans h) (by decide)⟩
    · have hcmd : ¬(s.start i).InRelease := mt (opcode_eq_release_iff hi).mp hrelease
      exact State.Working.teardownInv ⟨hconf, hrel, hphase, hcmd, nofun, plain_programOf hrelease⟩
  | false =>
    rcases htorn hconf with ⟨hbusy, -⟩ | ⟨-, ⟨hbusy, -⟩ | ⟨-, -, hreleased⟩⟩
    · exact absurd (hb.symm.trans hbusy) Bool.false_ne_true
    · exact absurd (hb.symm.trans hbusy) Bool.false_ne_true
    · exact absurd hreleased hphase

/-- A reset releases the pins where they are configured (R240), and only there, so that the construction it ends has
released them at most once. -/
theorem State.TeardownInv.assertReset {s : State} (hs : s.TeardownInv) : s.assertReset.TeardownInv := by
  obtain ⟨hconstructed, htorn⟩ := hs
  rw [State.assertReset_eq]
  refine State.teardownInv_of_torn rfl (.inl ⟨rfl, nofun, .inl ⟨rfl, ?_⟩⟩)
  cases hconf : s.latches.conf with
  | true =>
    obtain ⟨hrel, -⟩ := hconstructed hconf
    simp [hrel]
  | false =>
    rcases htorn hconf with ⟨-, -, ⟨-, hrel⟩ | ⟨-, -, -, hrel⟩⟩ | ⟨hrel, -⟩ <;> simp [hrel]

/-- Settles O60: where `conf` is 1 a sequence other than RELEASE's is plain, and where it is 0 only the start-up is left
to run. -/
theorem stepKeepsOneTeardown : Obligations.StepKeepsOneTeardown := by
  refine step_invariant State.TeardownInv ?agenda ?read ?observe ?ovr ?frac ?reject ?start ?micro ?assert ?deassert
  case micro => exact fun s => State.microStep_invariant _ (fun _ _ _ e hs => hs.runOp e) s
  case start => exact fun s i hi hb hphase hs => hs.start hi hb hphase
  case assert => exact fun _ => State.TeardownInv.assertReset
  all_goals intros; assumption

end Sys2Proof.Machine
end

section
/-! The host port (R180 to R186): what each index reads, and what a write of it reaches. -/

namespace Sys2Proof.Machine

theorem exec_rd {idx : Nat} (h : idx < 16) (s : State) : exec (.rd idx) s = .next (s.hostRead idx) := if_pos h

theorem exec_wr {idx : Nat} (h : idx < 16) (s : State) (w : Word) : exec (.wr idx w) s = .next (s.hostWrite idx w) :=
  if_pos h

/-- The reserved indices read 0 (R43). -/
theorem regRead_reserved (r : Regs) {idx : Nat} (h : 12 ≤ idx) : regRead r idx = 0 := by
  obtain ⟨k, rfl⟩ := Nat.exists_eq_add_of_le' h
  rfl

/-- Settles O4: whichever the index, the value is what the port shows there. -/
theorem readReturnsTheRegister : Obligations.ReadReturnsTheRegister := by
  intro s idx v h
  have hport : idx < 16 ∧ v = regRead s.regs idx := by
    rcases h with ⟨rfl, rfl⟩ | ⟨rfl, rfl⟩ | ⟨rfl, rfl⟩ | ⟨rfl, rfl⟩ | ⟨rfl, rfl⟩ | ⟨rfl, rfl⟩ | ⟨rfl, rfl⟩ |
      ⟨rfl, rfl⟩ | ⟨rfl, rfl⟩ | ⟨rfl, rfl⟩ | ⟨rfl, rfl⟩ | ⟨rfl, rfl⟩ | ⟨hlo, hhi, rfl⟩
    on_goal 13 => exact ⟨Nat.lt_succ_of_le hhi, (regRead_reserved s.regs hlo).symm⟩
    all_goals exact ⟨by decide, rfl⟩
  obtain ⟨hidx, rfl⟩ := hport
  exact exec_rd hidx s

/-- A write of STATUS clears OVR where its bit 3 is 1, and else does nothing (R181). -/
theorem State.regWrite_status {s : State} (hr : s.resetAsserted = false) (w : Word) :
    s.regWrite 1 w = if w.getLsbD 3 then { s with regs := { s.regs with ovr := false } } else s :=
  if_neg (Bool.eq_false_iff.mp hr)

theorem State.regWrite_fraction {s : State} (hr : s.resetAsserted = false) (w : Word) :
    s.regWrite 2 w = { s with regs := { s.regs with fraction := w } } :=
  if_neg (Bool.eq_false_iff.mp hr)

/-- A write of a read-only or a reserved index is ignored (R182). -/
theorem State.regWrite_of_three_le (s : State) {idx : Nat} (h : 3 ≤ idx) (w : Word) : s.regWrite idx w = s := by
  obtain ⟨k, rfl⟩ := Nat.exists_eq_add_of_le' h
  exact ite_self s

/-- Settles O7, one index after another. -/
theorem writesReachOnlyOvrAndFraction : Obligations.WritesReachOnlyOvrAndFraction := by
  refine fun s w => ⟨fun hr => ⟨fun hbit => ?_, fun hbit => ?_, ?_⟩, fun idx hlo hhi => ?_⟩
  · rw [exec_wr (by decide), State.hostWrite, State.regWrite_status hr, if_pos hbit]
    rfl
  · rw [exec_wr (by decide), State.hostWrite, State.regWrite_status hr, if_neg (Bool.eq_false_iff.mp hbit)]
    rfl
  · rw [exec_wr (by decide), State.hostWrite, State.regWrite_fraction hr]
    rfl
  · rw [exec_wr (Nat.lt_succ_of_le hhi), State.hostWrite, State.regWrite_of_three_le s hlo]
    rfl

/-- Settles O8: BUSY is the first check of R183. -/
theorem commandWhileBusyIsDropped : Obligations.CommandWhileBusyIsDropped := by
  intro s w hr hb
  have haccept : s.accept w = { s with regs := { s.regs with ovr := true } } := if_pos hb
  rw [exec_wr_cmd s w hr, haccept]
  rfl

/-- Settles O14: the acceptance is the command's start. -/
theorem acceptedCommandStarts : Obligations.AcceptedCommandStarts := by
  intro s i ha hi hm
  refine ⟨?_, rfl⟩
  rw [exec_wr_cmd s _ ha.1, s.accept_start i ha hi hm]
  rfl

end Sys2Proof.Machine
end

section
/-! RELEASE and the released block (R190, R192), and that every command presented alone ends (R187). -/

namespace Sys2Proof.Machine

/-- Settles O28: a command that is not rejected runs to its end within the bound. -/
theorem everyCommandTerminates : Obligations.EveryCommandTerminates := by
  intro s i hr hb hi
  refine ⟨_, exec_command i hi s, ?_⟩
  rcases s.runCommand_cases i hi with ⟨hr', -⟩ | ⟨-, hb', -⟩ | ⟨code, info, -, -, h⟩ | ⟨-, -, h⟩
  · exact absurd (hr.symm.trans hr') (by decide)
  · exact absurd (hb.symm.trans hb') (by decide)
  · rw [h, State.observe_regs, State.reject_regs, hb]
  · rw [h]
    exact (s.start i).observe.endsFrom_programOf i hi hr rfl

/-- A RELEASE that completes makes the block RELEASED and keeps CAL and VIOL (R212). -/
theorem terminateRegs_release (r : Regs) :
    terminateRegs r (opcode .release) .ok 0 =
      { r with phase := .released, err := .ok, errinfo := 0, busy := false } := by
  have hcal : opcode .release ≠ opcode .calibrate := by decide
  simp [terminateRegs, violAfter, ResultCode.isViolation, hcal]

/-- RELEASE runs its teardown and its `complete` (R190). -/
theorem State.run_releaseProgram (s : State) (hr : s.resetAsserted = false) (hb : s.regs.busy = true) :
    { s with todo := releaseProgram }.runToEnd 2 = s.teardown.terminate .ok 0 :=
  (s.run_op .teardown [.complete] 1 hr hb).trans (State.run_complete _ 0 rfl hr hb)

/-- Settles O27: the run leaves what the teardown leaves, with the block RELEASED. -/
theorem releaseTearsDown : Obligations.ReleaseTearsDown := by
  intro s ha
  have hcmd : (s.start .release).observe.teardown.latches.cmdL.value = opcode .release := rfl
  have hrun := (s.start .release).observe.run_releaseProgram ha.1 rfl
  refine ⟨(s.start .release).observe.teardown.latches, rfl, ?_⟩
  rw [exec_of_run s _ .release ha (by simp [Instr.IsCommand]) (s.meets_of_ne _ nofun nofun) 2 hrun rfl (by decide),
    State.terminate, hcmd, terminateRegs_release]
  simp [failureEvents, ha.2.1]

/-- Nothing runs and the block is RELEASED. -/
def State.Released (s : State) : Prop := s.regs.phase = .released ∧ s.regs.busy = false ∧ s.todo = []

/-- A released block `s` is left released, with its pins and `conf` untouched (R190, R192). -/
def State.StaysReleased (s t : State) : Prop :=
  t.regs.phase = .released ∧ t.regs.busy = false ∧ t.todo = [] ∧ t.sclk = s.sclk ∧ t.obs.trace = s.obs.trace ∧
    t.latches.conf = s.latches.conf

theorem State.Released.stays {s : State} (hs : s.Released) : s.StaysReleased s := by
  obtain ⟨hphase, hb, ht⟩ := hs
  exact ⟨hphase, hb, ht, rfl, rfl, rfl⟩

/-- A released block starts no command (R208). -/
theorem State.Released.accept {s : State} (hs : s.Released) (w : Word) : s.StaysReleased (s.accept w) := by
  rcases s.accept_shapes w with ⟨b, h⟩ | ⟨code, info, -, h⟩ | ⟨i, -, -, hphase, -, -⟩
  · exact h ▸ hs.stays
  · exact h ▸ hs.stays
  · exact absurd hs.1 hphase

theorem State.Released.hostWrite {s : State} (hs : s.Released) (idx : Nat) (w : Word) :
    s.StaysReleased (s.hostWrite idx w) := by
  rw [State.hostWrite]
  rcases s.regWrite_cases idx w with h | ⟨-, -, h⟩ | ⟨b, h⟩ | ⟨-, h⟩ <;> rw [h]
  · exact hs.stays
  · exact hs.accept w
  · exact hs.stays
  · exact hs.stays

theorem State.Released.exec {s t : State} {i : Instr} (hs : s.Released) (h : exec i s = .next t) :
    s.StaysReleased t := by
  rcases exec_cases s t i h with ⟨hi, rfl⟩ | ⟨idx, -, rfl⟩ | ⟨idx, w, -, rfl⟩
  · have ⟨_, hb, _⟩ := hs.hostWrite 0 (commandWord i)
    rw [s.runCommand_eq_hostWrite _ fun _ _ => hb]
    exact hs.hostWrite 0 _
  · exact hs.stays
  · exact hs.hostWrite idx w

/-- Where a frame leads, an instruction leads: an illegal word is answered as its write to CMD is (R85). -/
theorem exists_exec_of_hostTurn {s t : State} {bytes : List Byte} (h : hostTurn bytes s = .next t) :
    ∃ i, exec i s = .next t := by
  unfold hostTurn at h
  split at h
  · exact ⟨_, h⟩
  · next w _ => exact ⟨.wr 0 w, h⟩
  · cases h
  · cases h

theorem State.Released.engineTurn {s t : State} (hs : s.Released) (h : engineTurn s = .next t) :
    s.StaysReleased t := by
  have ⟨_, _, ht⟩ := hs
  have hmicro : s.microStep = s := by
    rw [State.microStep, ht]
    exact ite_self s
  rcases engineTurn_cases s t h with rfl | rfl
  · exact hs.stays
  · exact hmicro.symm ▸ hs.stays

theorem State.Released.takeTurn {s t : State} {turn : Turn} (hs : s.Released) (hturn : turn ≠ .assertReset)
    (h : takeTurn turn s = .next t) : s.StaysReleased t := by
  cases turn with
  | engine => exact hs.engineTurn h
  | frame bytes =>
    obtain ⟨i, hi⟩ := exists_exec_of_hostTurn h
    exact hs.exec hi
  | assertReset => exact absurd rfl hturn
  | deassertReset =>
    cases h
    exact hs.stays

/-- Settles O32, one kind of turn after another. -/
theorem releasedStaysReleasedUntilReset : Obligations.ReleasedStaysReleasedUntilReset := by
  intro s t hphase hb ht hagenda h
  have hs : s.Released := ⟨hphase, hb, ht⟩
  unfold step at h
  split at h
  · exact hs.engineTurn h
  · next turn rest e =>
    rw [e] at hagenda
    exact State.Released.takeTurn (s := { s with agenda := rest }) hs (hagenda <| congrArg some ·) h

end Sys2Proof.Machine
end

section
/-! An acquisition that is never ready (R128, R204): its last poll ends the run, and with it the command. -/

namespace Sys2Proof.Machine

/-- An acquisition that is never ready keeps CAL, and VIOL, since NOT_READY is no violation (R28, R212). -/
theorem terminateRegs_notReady (r : Regs) {i : Instr} (hi : i.Acquires) (info : Word) :
    terminateRegs r (opcode i) .notReady info =
      { r with phase := .idle, err := .notReady, errinfo := info, busy := false } := by
  obtain ⟨hcommand, hcal, hrel⟩ := isCommand_of_acquires hi
  simp [terminateRegs, violAfter, ResultCode.isViolation, opcode_eq_calibrate_iff hcommand,
    opcode_eq_release_iff hcommand, hcal, hrel]

/-- Settles O22: the poll's last attempt raises NOT_READY, so that neither the sample read nor what follows it runs. -/
theorem acquisitionNeverReadyTimesOut : Obligations.AcquisitionNeverReadyTimesOut := by
  intro s i ha hi hm hd
  obtain ⟨rest, hprogram⟩ := exists_programOf_eq_acquireThen hi
  have hstart : { (s.start i).observe with todo := acquireThen rest } = (s.start i).observe := by rw [← hprogram]; rfl
  obtain ⟨l, hl, hrun⟩ := (s.start i).observe.run_acquire_timeout ha.1 rfl 0 rest hd
  rw [hstart] at hrun
  have hcmd : l.cmdL.value = opcode i := congrArg Latch.value hl.cmdL
  refine ⟨l, hl.conf, ?_⟩
  rw [exec_of_run s _ i ha (isCommand_of_acquires hi).1 hm _ hrun rfl (by decide), State.terminate]
  simp [hcmd, terminateRegs_notReady _ hi, failureEvents, ha.2.1, State.polled, State.inPhase]

end Sys2Proof.Machine
end

section
/-! Commands rejected at acceptance (R183, R185, R205, R206, R208). -/

namespace Sys2Proof.Machine

/-- A released block rejects a legal word before it looks at a precondition (R208, R210). -/
theorem State.accept_released {s : State} {i : Instr} (hi : i.IsCommand) (hb : s.regs.busy = false)
    (hphase : s.regs.phase = .released) :
    s.accept (commandWord i) = s.reject .released (commandWord i) := by
  simp [State.accept, hb, decodeCommand_commandWord i hi, hphase]

/-- CAL_UNIT's precondition (R156). -/
theorem State.accept_calUnit_invalid {s : State} (ha : s.Accepting) (hf : fracOk s.regs.fraction = false) :
    s.accept (commandWord .calUnit) = s.reject .invalidFraction s.regs.fraction := by
  have hdecode := decodeCommand_commandWord .calUnit (by simp [Instr.IsCommand])
  simp [State.accept, ha.2.1, hdecode, ha.2.2, hf]

/-- MEASURE's precondition (R157). -/
theorem State.accept_measure_zeroUnit {s : State} (ha : s.Accepting) (hu : fpIsZero s.regs.unit = true) :
    s.accept (commandWord .measure) = s.reject .notCalibrated 0 := by
  have hdecode := decodeCommand_commandWord .measure (by simp [Instr.IsCommand])
  simp [State.accept, ha.2.1, hdecode, ha.2.2, hu]

/-- A command that its acceptance rejects, presented alone, is the rejection, observed (R16, R185). -/
theorem exec_of_reject {s : State} {i : Instr} {code : ResultCode} {info : Word} (hi : i.IsCommand)
    (hr : s.resetAsserted = false) (hb : s.regs.busy = false)
    (haccept : s.accept (commandWord i) = s.reject code info) :
    exec i s = .next (s.reject code info).observe := by
  have hwrite : s.hostWrite 0 (commandWord i) = (s.reject code info).observe := by
    simp [State.regWrite, hr, haccept]
  rw [exec_command i hi, s.runCommand_eq_hostWrite, hwrite]
  exact fun _ _ => hwrite ▸ hb

/-- Settles O11: RELEASED is the first check of a legal word after BUSY. -/
theorem releasedBlockRejectsEveryCommand : Obligations.ReleasedBlockRejectsEveryCommand := by
  intro s i hr hb hphase hi
  have haccept := State.accept_released hi hb hphase
  refine ⟨exec_of_reject hi hr hb haccept, ?_⟩
  rw [exec_wr_cmd s _ hr, haccept, exec_of_reject hi hr hb haccept]

/-- The fractions that `frac_ok` refuses: the two zeros, and every pattern with an exponent of ones (R156). -/
theorem fracOk_eq_false {f : Word} (h : f = 0 ∨ f = 0x8000000000000000 ∨ f.extractLsb' 52 11 = 0x7FF) :
    fracOk f = false := by
  rcases h with rfl | rfl | hexp
  · decide
  · decide
  · have hinfinite : fpIsFinite f = false := by simp [fpIsFinite, fpExp, hexp]
    rw [fracOk, hinfinite, Bool.and_false]

/-- Settles O12: what R206 names is what `frac_ok` refuses. -/
theorem invalidFractionIsRejected : Obligations.InvalidFractionIsRejected := fun _ ha hf =>
  exec_of_reject (by simp [Instr.IsCommand]) ha.1 ha.2.1 (State.accept_calUnit_invalid ha (fracOk_eq_false hf))

/-- Settles O13: both zeros are zeros to MEASURE's check. -/
theorem zeroUnitIsRejected : Obligations.ZeroUnitIsRejected := by
  intro s ha hu
  have hzero : fpIsZero s.regs.unit = true := by rcases hu with hu | hu <;> rw [hu] <;> decide
  exact exec_of_reject (by simp [Instr.IsCommand]) ha.1 ha.2.1 (State.accept_measure_zeroUnit ha hzero)

end Sys2Proof.Machine
end

section
/-! Events (R222, R223): a command tells at most one, since a failure ends it and nothing after its SAMPLE can fail. -/

namespace Sys2Proof.Machine

/-- The event list has grown at its end by at most one event. -/
def GrewByAtMostOne (before after : List Event) : Prop := ∃ evs, after = before ++ evs ∧ evs.length ≤ 1

theorem GrewByAtMostOne.refl (events : List Event) : GrewByAtMostOne events events := ⟨[], by simp⟩

theorem GrewByAtMostOne.one (events : List Event) (ev : Event) : GrewByAtMostOne events (events ++ [ev]) :=
  ⟨[ev], rfl, Nat.le_refl 1⟩

/-- The end of a sequence tells at most one event (R212). -/
theorem length_failureEvents_le (code : ResultCode) (info : Word) : (failureEvents code info).length ≤ 1 := by
  cases code <;> simp [failureEvents]

/-- A micro-step that can emit no event: it tests nothing, and is not the SAMPLE of an acquisition. -/
def MicroOp.Silent (op : MicroOp) : Prop := op.isTest = false ∧ op ≠ .emitSample

theorem State.runOp_silent_events (s : State) {op : MicroOp} (h : op.Silent) :
    (s.runOp op).obs.events = s.obs.events := by
  obtain ⟨htest, hsample⟩ := h
  cases op
  case emitSample | validate | checkCal | pollTest => contradiction
  case complete | completeReady | completeZero | completeUnit | completeMeasure =>
    exact List.append_nil s.obs.events
  all_goals rfl

theorem State.runOp_silent_todo (s : State) {op : MicroOp} (h : op.Silent) :
    (s.runOp op).todo = s.todo ∨ (s.runOp op).todo = [] := by
  rcases s.runOp_todo op with hrest | hnil | ⟨rfl, -⟩
  · exact .inl hrest
  · exact .inr hnil
  · exact absurd h.1 (by decide)

/-- A sequence in which nothing that can emit an event follows a SAMPLE. -/
def SampleLast (todo : List MicroOp) : Prop := todo.Pairwise fun op next => op = .emitSample → next.Silent

theorem SampleLast.prepend {todo : List MicroOp} (h : SampleLast todo) {before : List MicroOp}
    (hbefore : ∀ op ∈ before, op ≠ .emitSample) : SampleLast (before ++ todo) :=
  List.pairwise_append.mpr
    ⟨List.pairwise_of_forall_mem_list fun op hop _ _ hsample => absurd hsample (hbefore op hop), h,
      fun op hop _ _ hsample => absurd hsample (hbefore op hop)⟩

theorem sampleLast_nil : SampleLast [] := List.Pairwise.nil

/-- A sequence with no SAMPLE at all. -/
theorem sampleLast_of_forall_ne {todo : List MicroOp} (h : ∀ op ∈ todo, op ≠ .emitSample) : SampleLast todo :=
  List.append_nil todo ▸ sampleLast_nil.prepend h

theorem pulseOps_ne_emitSample : ∀ op ∈ pulseOps, op ≠ .emitSample := by decide

/-- A loop of pulses, each with the counter before it and what follows it. -/
theorem loopOps_ne_emitSample {after : List MicroOp} (hafter : ∀ op ∈ after, op ≠ .emitSample) (n start : Nat) :
    ∀ op ∈ loopOps (fun k => .setK k :: (pulseOps ++ after)) n start, op ≠ .emitSample := by
  refine forall_mem_loopOps (· ≠ .emitSample) _ (fun k => ?_) n start
  simp only [List.forall_mem_cons, List.forall_mem_append]
  exact ⟨nofun, pulseOps_ne_emitSample, hafter⟩

theorem sampleLast_calSeq : SampleLast calSeq := by
  refine sampleLast_of_forall_ne ?_
  have hdiscards := loopOps_ne_emitSample (after := []) nofun Config.nCalDiscard 1
  have hchecks := loopOps_ne_emitSample (after := [.readData, .checkCal]) (by decide) Config.nCalCheck 0
  rw [List.append_nil] at hdiscards
  simp only [calSeq, List.forall_mem_cons, List.forall_mem_append]
  exact ⟨nofun, hdiscards, hchecks, nofun, nofun⟩

/-- An acquisition emits its SAMPLE after everything in it that can fail (R131). -/
theorem sampleLast_acquireThen {op : MicroOp} (h : op.Silent) : SampleLast (acquireThen [op]) := by
  have hpublish : SampleLast [.emitSample, op] := List.pairwise_pair.mpr fun _ => h
  have hbits := loopOps_ne_emitSample (after := [.readData, .shiftAcc]) (by decide) Config.nBits 1
  refine ((hpublish.prepend (before := [.writeRaw]) (by decide)).prepend (before := readSample) ?_).prepend
    (before := waitReady) (by decide)
  simp only [readSample, List.forall_mem_cons]
  exact ⟨nofun, nofun, hbits⟩

theorem sampleLast_programOf {i : Instr} (hi : i.IsCommand) : SampleLast (programOf i) := by
  rcases hi with rfl | rfl | rfl | rfl | rfl | rfl | rfl | rfl
  · exact sampleLast_of_forall_ne (by decide)
  · exact sampleLast_calSeq
  · exact sampleLast_of_forall_ne (by decide)
  · exact sampleLast_acquireThen ⟨rfl, nofun⟩
  · exact sampleLast_acquireThen ⟨rfl, nofun⟩
  · exact sampleLast_acquireThen ⟨rfl, nofun⟩
  · exact sampleLast_acquireThen ⟨rfl, nofun⟩
  · exact sampleLast_of_forall_ne (by decide)

/-- A command that began with the event list `events` has told nothing yet and can tell one event, or has told one and
runs silently to its end. -/
def State.TellsOne (events : List Event) (s : State) : Prop :=
  (s.obs.events = events ∧ SampleLast s.todo) ∨
    (GrewByAtMostOne events s.obs.events ∧ ∀ op ∈ s.todo, op.Silent)

theorem State.TellsOne.grewByAtMostOne {events : List Event} {s : State} (hs : s.TellsOne events) :
    GrewByAtMostOne events s.obs.events := by
  rcases hs with ⟨hsame, -⟩ | ⟨hgrew, -⟩
  · exact hsame ▸ .refl _
  · exact hgrew

/-- A micro-step before the command has told anything: a test that fails tells one event and ends the command, and so
only silent micro-steps can follow an event. -/
theorem State.runOp_tellsOne (s : State) {op : MicroOp} (hop : op = .emitSample → ∀ next ∈ s.todo, next.Silent)
    (hlast : SampleLast s.todo) : (s.runOp op).TellsOne s.obs.events := by
  refine State.runOp_of_tests (State.TellsOne s.obs.events) s op (.inl ⟨rfl, hlast⟩) (fun code info => ?_) ?_
    fun htest => ?_
  · exact .inr ⟨⟨_, rfl, length_failureEvents_le code info⟩, nofun⟩
  · exact .inl ⟨rfl, hlast.prepend (before := .sleep :: pollOps) (by decide)⟩
  · by_cases hsample : op = .emitSample
    · subst hsample
      exact .inr ⟨.one _ _, hop rfl⟩
    · refine .inl ⟨s.runOp_silent_events ⟨htest, hsample⟩, ?_⟩
      rcases s.runOp_silent_todo ⟨htest, hsample⟩ with htodo | htodo <;> rw [htodo]
      · exact hlast
      · exact sampleLast_nil

theorem State.TellsOne.runToEnd {events : List Event} {s : State} (n : Nat) (hs : s.TellsOne events) :
    (s.runToEnd n).TellsOne events := by
  refine State.runToEnd_invariant _ (State.microStep_invariant _ ?_) n s hs
  rintro s op rest htodo (⟨rfl, hlast⟩ | ⟨hgrew, hsilent⟩)
  · rw [htodo] at hlast
    obtain ⟨hop, hrest⟩ := List.pairwise_cons.mp hlast
    exact State.runOp_tellsOne { s with todo := rest } (fun hsample next hnext => hop next hnext hsample) hrest
  · rw [htodo, List.forall_mem_cons] at hsilent
    obtain ⟨hop, hrest⟩ := hsilent
    refine .inr ⟨?_, ?_⟩
    · rwa [State.runOp_silent_events _ hop]
    · rcases State.runOp_silent_todo { s with todo := rest } hop with h | h <;> rw [h]
      · exact hrest
      · nofun

/-- An acceptance tells its rejection, or nothing (R183, R185). -/
theorem State.accept_events (s : State) (w : Word) : GrewByAtMostOne s.obs.events (s.accept w).obs.events := by
  rcases s.accept_shapes w with ⟨b, h⟩ | ⟨code, info, -, h⟩ | ⟨i, -, -, -, -, h⟩ <;> rw [h]
  · exact .refl _
  · exact .one _ _
  · exact .refl _

theorem State.hostWrite_events (s : State) (idx : Nat) (w : Word) :
    GrewByAtMostOne s.obs.events (s.hostWrite idx w).obs.events := by
  rw [State.hostWrite]
  rcases s.regWrite_cases idx w with h | ⟨-, -, h⟩ | ⟨b, h⟩ | ⟨-, h⟩ <;> rw [h]
  · exact .refl _
  · exact s.accept_events w
  · exact .refl _
  · exact .refl _

theorem State.runCommand_events (s : State) {i : Instr} (hi : i.IsCommand) :
    GrewByAtMostOne s.obs.events (s.runCommand (commandWord i)).obs.events := by
  rcases s.runCommand_cases i hi with ⟨-, h⟩ | ⟨-, -, h⟩ | ⟨code, info, -, -, h⟩ | ⟨-, -, h⟩ <;> rw [h]
  · exact .refl _
  · exact .refl _
  · exact .one _ _
  · have hstart : (s.start i).observe.TellsOne s.obs.events := .inl ⟨rfl, sampleLast_programOf hi⟩
    exact (hstart.runToEnd commandBound).grewByAtMostOne

/-- Settles O31, one kind of instruction after another. -/
theorem atMostOneEventPerCommand : Obligations.AtMostOneEventPerCommand := by
  intro s t i h
  rcases exec_cases s t i h with ⟨hi, rfl⟩ | ⟨idx, -, rfl⟩ | ⟨idx, w, -, rfl⟩
  · exact s.runCommand_events hi
  · exact GrewByAtMostOne.refl _
  · exact s.hostWrite_events idx w

end Sys2Proof.Machine
end

section
/-! Reset (R240): its assertion takes one step, and while it is held only the observation of an access changes. -/

namespace Sys2Proof.Machine

/-- The assertion of reset at the head of the agenda is the next step (R70, R240). -/
theorem step_of_assertReset {s : State} {rest : List Turn} (h : s.agenda = .assertReset :: rest) :
    step s = .next ({ s with agenda := rest } : State).assertReset := by
  rw [step, h]
  rfl

/-- Settles O37: what the assertion leaves does not depend on the state before but in the pin trace. -/
theorem assertingResetTakesEffectAtOnce : Obligations.AssertingResetTakesEffectAtOnce := by
  intro s rest hagenda
  refine ⟨_, step_of_assertReset hagenda, ?_⟩
  rw [State.assertReset_eq]
  exact ⟨rfl, rfl, rfl, rfl, rfl, rfl, rfl, rfl, rfl, rfl, rfl⟩

/-- A write under reset is ignored (R240). -/
theorem State.regWrite_of_reset {s : State} (hr : s.resetAsserted = true) (idx : Nat) (w : Word) :
    s.regWrite idx w = s :=
  if_pos hr

/-- An ignored write is observed (R16). -/
theorem State.hostWrite_of_reset {s : State} (hr : s.resetAsserted = true) (idx : Nat) (w : Word) :
    s.hostWrite idx w = s.observe := by
  rw [State.hostWrite, State.regWrite_of_reset hr]

/-- A command under reset is its ignored write (R240). -/
theorem State.runCommand_of_reset {s : State} (hr : s.resetAsserted = true) (w : Word) :
    s.runCommand w = s.observe := by
  rw [State.runCommand, if_pos (by rw [hr, Bool.true_or]), State.hostWrite_of_reset hr]

/-- Settles O38: a write and a command come to the observation alone, and the engine stands. -/
theorem heldResetFreezesTheBlock : Obligations.HeldResetFreezesTheBlock := by
  intro s i idx w hr hidx hi
  refine ⟨?_, ?_, if_pos hr⟩
  · rw [exec_wr (Nat.lt_succ_of_le hidx), State.hostWrite_of_reset hr]
    rfl
  · rw [exec_command i hi, State.runCommand_of_reset hr]
    rfl

end Sys2Proof.Machine
end

section
/-! The start-up (R215, R241, R242): five micro-steps configure the pins, and the rest is a calibration, which passes,
fails a check or is aborted by a violation. -/

namespace Sys2Proof.Machine

/-- What the start-up leaves before its calibration, after a reset of `s`: the pins configured, SCLK low, and CALIBRATE
latched (R241). -/
def State.constructed (s : State) : State where
  regs := resetRegs
  latches := { resetLatches with conf := true, cmdL := .of (opcode .calibrate) }
  sclk := .low
  resetAsserted := false
  todo := calSeq
  env := s.env
  obs := { s.assertReset.obs with
    trace := s.assertReset.obs.trace ++ [.configure .sclk .output, .setClk false, .configure .data .input] }
  agenda := s.agenda

/-- The start-up's first five micro-steps construct the block (R241). -/
theorem State.run_construct (s : State) : s.assertReset.deassertReset.runToEnd 5 = s.constructed := by
  rw [State.constructed, State.assertReset_eq]
  simp [State.deassertReset, startUpProgram, State.runToEnd, State.microStep, State.runOp, State.configure,
    State.driveClk, State.record, resetRegs]

/-- The engine's turns from the deassertion of reset reach what the calibration of the constructed block reaches. -/
theorem core_run_startUp {s t : State} (ha : s.agenda = []) (h : s.constructed.runToEnd 244 = t) :
    Host.Core.run core 249 s.assertReset.deassertReset = .next t := by
  have hagenda : s.assertReset.deassertReset.agenda = [] := by rw [State.assertReset_eq]; exact ha
  rw [core_run_eq 249 _ (State.latchInv_of_startUp rfl) hagenda (State.doneWhenIdle_of_busy rfl),
    State.runToEnd_add 5 244, s.run_construct, h]

@[simp] theorem State.ran_latches (s : State) (np nl : Nat) (tr : List PinStep) (l : Latches) :
    (s.ran np nl tr l).latches = l := rfl

/-- Settles O39: the calibration of the constructed block comes to its `complete`. -/
theorem startUpPasses : Obligations.StartUpPasses := by
  intro s hagenda hv hd
  obtain ⟨l, hl, hrun⟩ := s.constructed.run_cal_pass rfl rfl hv hd
  have hcmd : l.cmdL.value = opcode .calibrate := congrArg Latch.value hl.cmdL
  refine ⟨249, _, core_run_startUp hagenda hrun, ?_, hl.conf, rfl, rfl, rfl, ?_, ?_⟩
  · rw [State.terminate_regs, State.ran_latches, hcmd, terminateRegs_ok _ (.inr (.inl rfl)) nofun]
    rfl
  · simp [State.ran, State.inPhase, State.constructed, State.assertReset_eq, failureEvents]
  · simp [State.ran, State.inPhase, State.constructed]

/-- How a calibration can end: it passes, a check fails, or a pulse violates (R121 to R125). -/
def ResultCode.EndsCalibration (code : ResultCode) : Prop :=
  code = .ok ∨ code = .calibrationFailed ∨ code.isViolation = true

/-- The end of a calibration tells itself in CAL, and in VIOL where that was 0 before (R28, R32, R212). -/
theorem ResultCode.EndsCalibration.tells {code : ResultCode} (h : code.EndsCalibration) :
    calOutcomeOf code ≠ .none ∧ (calOutcomeOf code = .passed ↔ code = .ok) ∧
      (violAfter code true false = true ↔ calOutcomeOf code = .aborted) := by
  rcases h with rfl | rfl | hviol
  · decide
  · decide
  · have hok : code ≠ .ok := by rintro rfl; cases hviol
    have hfailed : code ≠ .calibrationFailed := by rintro rfl; cases hviol
    simp [calOutcomeOf, violAfter, hviol, hok, hfailed]

/-- A calibration run from `s` ends, after some pulses and reads, in one of the three ways. -/
def State.CalibrationEnds (s : State) : Prop :=
  ∃ np nl tr l code info, s.latches.Keeps l ∧ code.EndsCalibration ∧
    { s with todo := calSeq }.runToEnd 244 = ((s.inPhase .calibrating).ran np nl tr l).terminate code info

/-- Whatever is drawn, a calibration ends: by its first violation or failing check, or by passing (R121 to R125). -/
theorem State.calibrationEnds (s : State) (hr : s.resetAsserted = false) (hb : s.regs.busy = true) :
    s.CalibrationEnds := by
  have violates (n : Nat) (hn : n < 26) (hv : ∀ i < n, ValidHigh (s.env.highAt i)) (hx : ¬ValidHigh (s.env.highAt n))
      (hd : ∀ i < n - 22, s.env.levelAt i = true) : s.CalibrationEnds := by
    obtain ⟨l, hl, hrun⟩ := s.run_cal_violation hr hb n hn hv hx hd
    exact ⟨_, _, _, l, _, _, hl, .inr (.inr (violationCode_spec _).1), hrun⟩
  rcases first_zero s.env.levelAt 4 with hd | ⟨j, hj, hd, h0⟩
  · rcases first_violation s.env.highAt 26 with hv | ⟨n, hn, hv, hx⟩
    · obtain ⟨l, hl, hrun⟩ := s.run_cal_pass hr hb hv hd
      exact ⟨_, _, _, l, _, _, hl, .inl rfl, hrun⟩
    · exact violates n hn hv hx fun i hi => hd i (by omega)
  · rcases first_violation s.env.highAt (23 + j) with hv | ⟨n, hn, hv, hx⟩
    · obtain ⟨l, hl, hrun⟩ := s.run_cal_fail hr hb j hj hv hd h0
      exact ⟨_, _, _, l, _, _, hl, .inr (.inl rfl), hrun⟩
    · exact violates n (by omega) hv hx fun i hi => hd i (by omega)

/-- Settles O40: the calibration of the constructed block ends, and its end makes the block IDLE and tells CAL and
VIOL. -/
theorem startUpAlwaysEnds : Obligations.StartUpAlwaysEnds := by
  intro s hagenda
  obtain ⟨np, nl, tr, l, code, info, hl, hcode, hrun⟩ := s.constructed.calibrationEnds rfl rfl
  have hcmd : l.cmdL.value = opcode .calibrate := congrArg Latch.value hl.cmdL
  obtain ⟨hended, hpassed, hviol⟩ := hcode.tells
  refine ⟨249, _, core_run_startUp hagenda hrun, ?_⟩
  rw [State.Accepting, State.terminate_regs, State.ran_latches, hcmd]
  exact ⟨⟨rfl, rfl, nofun⟩, rfl, hended, hpassed, hviol, hl.conf⟩

end Sys2Proof.Machine
end
